-- ==== Sys2Proof/Word.lean ====
section
/-! DEFINITION. The Word of the machine and its two readings as a number (spec/00_scope.md R5, R7, R8). -/

namespace Sys2Proof

/-- A Word: "a 16-bit unsigned quantity" (R8).  Its unsigned value `u(w)` is `w.toNat`, its signed value
`s(w)` is `w.toInt`, bit 15 is `w.msb` and bit `i` is `w.getLsbD i` (R7). -/
abbrev Word := BitVec 16

/-- The index of a general register, 0 to 7 (R22, R82): a 3-bit field names no other. -/
abbrev Reg := Fin 8

/-- One past the highest address of either address space: 65536 Words each (R5, R50). -/
def addressLimit : Nat := 65536

/-- "Every stored word is masked to 16 bits" (R8): an integer reduced modulo 65536. -/
def wordOfInt (v : Int) : Word := BitVec.ofInt 16 v

end Sys2Proof
end

