-- ==== Sys2Proof/Config.lean ====
section
/-! DEFINITION. The parameters the spec leaves open (spec/00_scope.md R6, spec/92_eei_decisions.md) and the names they
range over.  The machine carries one `Config`, fixed at construction (R21), so that a claim about every state is a
claim about every admitted value of every parameter.  The values the spec gives as defaults are in
Machine/Defaults.lean. -/

namespace Sys2Proof

/-- The 16 mnemonics (R2), in the order in which R85 lists them. -/
inductive Mnemonic where
  | LOADI | LUI | LOAD | STORE | ADDI | ADD | SUB | AND | OR | SHFT | BEQ | BNE | B | CALL | RET | HALT
  deriving DecidableEq, Repr

/-- The closed list of R2. -/
def Mnemonic.all : List Mnemonic :=
  [.LOADI, .LUI, .LOAD, .STORE, .ADDI, .ADD, .SUB, .AND, .OR, .SHFT, .BEQ, .BNE, .B, .CALL, .RET, .HALT]

/-- The five ALU operations (R140). -/
inductive AluOp where
  | add | sub | and | or | shft
  deriving DecidableEq, Repr

/-- The closed list of R140. -/
def AluOp.all : List AluOp := [.add, .sub, .and, .or, .shft]

/-- `OPMAP` (R85, D1), written by opcode: entry `k` is the mnemonic whose opcode is `k`. -/
abbrev Opmap := Vector Mnemonic 16

/-- `ALU_CTRL_MAP` (R141, D2), written by control code: entry `k` is the operation code `k` selects, for the
legal codes 0 to 4. -/
abbrev AluCtrlMap := Vector AluOp 5

/-- The switch `PC_OVERFLOW` (R27, D10). -/
inductive PcOverflow where
  /-- a program counter outside [0, 0xFFFF] raises `OperandRangeError`: the default -/
  | fault
  /-- it is reduced modulo 65536 -/
  | wrap
  deriving DecidableEq, Repr

/-- The switch `STORE_BASE_FIELD` (R88, D3): which field of STORE holds the base register. -/
inductive StoreBaseField where
  /-- bits 8:6: the default -/
  | f2
  /-- bits 11:9 -/
  | f1
  deriving DecidableEq, Repr

/-- The parameters of R6 that the machine consults while it runs. -/
structure Config where
  /-- `OPMAP` -/
  opmap : Opmap
  /-- `ALU_CTRL_MAP` -/
  aluCtrl : AluCtrlMap
  /-- `STACK_LO`, the lowest address of the stack region of data memory -/
  stackLo : Word
  /-- `STACK_HI`, the highest -/
  stackHi : Word
  /-- `PC_OVERFLOW` -/
  pcOverflow : PcOverflow
  /-- `STORE_BASE_FIELD` -/
  storeBase : StoreBaseField
  deriving DecidableEq, Repr

/-- The flags register (R29): negative, zero, carry, overflow.  No instruction moves it to or from a register or
memory (R30), so its four bits are held as four truth values. -/
structure Flags where
  /-- bit 3 -/
  n : Bool
  /-- bit 2 -/
  z : Bool
  /-- bit 1 -/
  c : Bool
  /-- bit 0 -/
  v : Bool
  deriving DecidableEq, Repr

/-- "As one 4-bit value it is `N*8 + Z*4 + C*2 + V`" (R29). -/
def Flags.toNat (f : Flags) : Nat := f.n.toNat * 8 + f.z.toNat * 4 + f.c.toNat * 2 + f.v.toNat

/-- The parameters of R6 that say what the machine holds when it is constructed. -/
structure Launch where
  /-- `REG_INIT` -/
  regInit : Vector Word 8
  /-- `FLAGS_INIT` -/
  flagsInit : Flags
  /-- `IR_INIT` -/
  irInit : Word
  /-- `PROGRAM`: word `i` goes to instruction address `i` (R232) -/
  program : List Word
  /-- `DMEM_INIT`, as a list of (address, Word) assignments made in order; every other address reads 0x0000 -/
  dmemInit : List (Word × Word)
  deriving DecidableEq, Repr

end Sys2Proof
end

