-- ==== Sys2Proof/Machine/Defaults.lean ====
section
/-! DEFINITION. The default values of the parameters of spec/00_scope.md R6, from spec/92_eei_decisions.md.  They stand
here and not in Config.lean because a test of the original may show another value to be right. -/

namespace Sys2Proof

/-- The default `OPMAP` (R85, D1): the listing order.  DESIGN CHOICE, unsafe (notes/assumptions/2.md). -/
def defaultOpmap : Opmap :=
  #v[.LOADI, .LUI, .LOAD, .STORE, .ADDI, .ADD, .SUB, .AND, .OR, .SHFT, .BEQ, .BNE, .B, .CALL, .RET, .HALT]

/-- The default `ALU_CTRL_MAP` (R141, D2): the listed order.  DESIGN CHOICE, unsafe (notes/assumptions/6.md). -/
def defaultAluCtrlMap : AluCtrlMap := #v[.add, .sub, .and, .or, .shft]

/-- The default `STACK_LO` (R53, D7).  DESIGN CHOICE, unsafe (notes/assumptions/7.md). -/
def defaultStackLo : Word := 0xFF00

/-- The default `STACK_HI` (R53, D7).  DESIGN CHOICE, unsafe (notes/assumptions/7.md). -/
def defaultStackHi : Word := 0xFFFF

/-- The default of `PC_OVERFLOW` (R27, D10).  DESIGN CHOICE, safe (notes/assumptions/12.md). -/
def defaultPcOverflow : PcOverflow := .fault

/-- The default of `STORE_BASE_FIELD` (R88, D3).  DESIGN CHOICE, unsafe (notes/assumptions/9.md). -/
def defaultStoreBase : StoreBaseField := .f2

/-- Every parameter at its default. -/
def defaultConfig : Config where
  opmap := defaultOpmap
  aluCtrl := defaultAluCtrlMap
  stackLo := defaultStackLo
  stackHi := defaultStackHi
  pcOverflow := defaultPcOverflow
  storeBase := defaultStoreBase

/-- The default `REG_INIT` (R36, D15): DESIGN CHOICE of the spec, unsafe (notes/assumptions/3.md). -/
def defaultRegInit : Vector Word 8 := #v[0, 0, 0, 0, 0, 0, 0, 0]

/-- The default `FLAGS_INIT` (R36, D15): DESIGN CHOICE of the spec, unsafe (notes/assumptions/4.md). -/
def defaultFlagsInit : Flags := ⟨false, false, false, false⟩

/-- The default `IR_INIT` (R36, D15): DESIGN CHOICE of the spec, unsafe (notes/assumptions/5.md). -/
def defaultIrInit : Word := 0x0000

/-- The launch with nothing loaded: `PROGRAM` empty, `DMEM_INIT` all 0x0000 (R36, D21). -/
def defaultLaunch : Launch where
  regInit := defaultRegInit
  flagsInit := defaultFlagsInit
  irInit := defaultIrInit
  program := []
  dmemInit := []

end Sys2Proof
end

