-- ==== Sys2Proof/Syntax.lean ====
section
/-! DEFINITION. The instructions (spec/30_encoding.md R83, R86 to R92; one constructor per row of
spec/opcode_table.json) and the closed list of errors (spec/60_exceptions.md R200). -/

namespace Sys2Proof

/-- The seven layouts, under the names of R11. -/
inductive Format where
  | I8 | I6 | M | R | BC | BU | O
  deriving DecidableEq, Repr

/-- The format of each mnemonic (R83). -/
def Mnemonic.format : Mnemonic → Format
  | .LOADI => .I8
  | .LUI => .I8
  | .LOAD => .M
  | .STORE => .M
  | .ADDI => .I6
  | .ADD => .R
  | .SUB => .R
  | .AND => .R
  | .OR => .R
  | .SHFT => .R
  | .BEQ => .BC
  | .BNE => .BC
  | .B => .BU
  | .CALL => .BU
  | .RET => .O
  | .HALT => .O

/-- An instruction with its fields.  Every field has exactly the width of its place in the Word (R82, R93), so every
term of this type is a well-formed instruction. -/
inductive Instr where
  /-- R170 -/
  | loadi (rd : Reg) (imm8 : BitVec 8)
  /-- R171 -/
  | lui (rd : Reg) (imm8 : BitVec 8)
  /-- R173: `f1` the destination, `f2` the base -/
  | load (f1 f2 : Reg) (addr6 : BitVec 6)
  /-- R174: by default `f1` the source, `f2` the base -/
  | store (f1 f2 : Reg) (addr6 : BitVec 6)
  /-- R180 -/
  | addi (rd ra : Reg) (imm6 : BitVec 6)
  /-- R181 -/
  | add (rd ra rb : Reg)
  /-- R182 -/
  | sub (rd ra rb : Reg)
  /-- R183 -/
  | and (rd ra rb : Reg)
  /-- R184 -/
  | or (rd ra rb : Reg)
  /-- R185 -/
  | shft (rd ra rb : Reg)
  /-- R191: `ra` is decoded, kept and not used -/
  | beq (ra : Reg) (offset8 : BitVec 8)
  /-- R192: `ra` is decoded, kept and not used -/
  | bne (ra : Reg) (offset8 : BitVec 8)
  /-- R196 -/
  | b (offset8 : BitVec 8)
  /-- R193 -/
  | call (offset8 : BitVec 8)
  /-- R194 -/
  | ret
  /-- R195 -/
  | halt
  deriving DecidableEq, Repr

/-- The mnemonic of an instruction (R84). -/
def Instr.mnemonic : Instr → Mnemonic
  | .loadi _ _ => .LOADI
  | .lui _ _ => .LUI
  | .load _ _ _ => .LOAD
  | .store _ _ _ => .STORE
  | .addi _ _ _ => .ADDI
  | .add _ _ _ => .ADD
  | .sub _ _ _ => .SUB
  | .and _ _ _ => .AND
  | .or _ _ _ => .OR
  | .shft _ _ _ => .SHFT
  | .beq _ _ => .BEQ
  | .bne _ _ => .BNE
  | .b _ => .B
  | .call _ => .CALL
  | .ret => .RET
  | .halt => .HALT

/-- The four kinds of error, each with the information `raise E(info)` gives it (R9, R200 to R205). -/
inductive CoreError where
  /-- code 1: the zero field of the Word's format is not 0 (R201) -/
  | decodeError (raw : Word)
  /-- code 2: an address outside its range, or a register index outside [0, 7] (R202); the value may be negative or
  above 0xFFFF -/
  | operandRangeError (a : Int)
  /-- code 3: an ordinary access to the stack region, or a write to instruction memory outside the load phase (R203) -/
  | protectedRegionError (a : Int)
  /-- code 4: an ALU control code 5, 6 or 7 (R205) -/
  | aluControlError (ctrl : BitVec 3)
  deriving DecidableEq, Repr

/-- The numbers of R200, used as error codes (D25). -/
def CoreError.code : CoreError → Nat
  | .decodeError _ => 1
  | .operandRangeError _ => 2
  | .protectedRegionError _ => 3
  | .aluControlError _ => 4

end Sys2Proof
end

