-- ==== Sys2Proof/WellFormed.lean ====
section
/-! DEFINITION. Which parameters are admitted (spec/00_scope.md R6) and which operands the encode side calls in range
(spec/30_encoding.md R99).  An `Instr` needs no check: each of its fields has the width of its encoding. -/

namespace Sys2Proof

/-- `OPMAP` is a bijection (R85): 16 places, no mnemonic twice. -/
def Opmap.wf (om : Opmap) : Bool := decide om.toList.Nodup

/-- `ALU_CTRL_MAP` is a bijection (R141): 5 places, no operation twice. -/
def AluCtrlMap.wf (cm : AluCtrlMap) : Bool := decide cm.toList.Nodup

/-- `1 <= STACK_LO <= STACK_HI <= 0xFFFF` (R53); the last bound is the width of a Word. -/
def Config.stackWf (c : Config) : Bool := decide (1 ≤ c.stackLo.toNat) && decide (c.stackLo.toNat ≤ c.stackHi.toNat)

/-- An admitted configuration (R6). -/
def Config.wf (c : Config) : Bool := Opmap.wf c.opmap && AluCtrlMap.wf c.aluCtrl && c.stackWf

/-- `PROGRAM` is a list of at most 65536 Words (spec/92_eei_decisions.md, table of open parameters). -/
def Launch.wf (l : Launch) : Bool := decide (l.program.length ≤ addressLimit)

/-- `v` lies in [lo, hi]. -/
def within (lo hi v : Int) : Bool := decide (lo ≤ v) && decide (v ≤ hi)

/-- A register operand in range: 0 to 7 (R98, R99). -/
def regInRange (v : Int) : Bool := within 0 7 v

/-- The operands of a format, most significant field first, are in range in the sense of R99: registers 0 to 7,
`imm8` 0 to 255, `imm6` and `addr6` -32 to 31, `offset8` -128 to 127.  A list of another length is never in range. -/
def operandsInRange (f : Format) (ops : List Int) : Bool :=
  match f, ops with
  | .I8, [rd, imm] => regInRange rd && within 0 255 imm
  | .I6, [rd, ra, imm] => regInRange rd && regInRange ra && within (-32) 31 imm
  | .M, [f1, f2, addr] => regInRange f1 && regInRange f2 && within (-32) 31 addr
  | .R, [rd, ra, rb] => regInRange rd && regInRange ra && regInRange rb
  | .BC, [ra, off] => regInRange ra && within (-128) 127 off
  | .BU, [off] => within (-128) 127 off
  | .O, [] => true
  | _, _ => false

end Sys2Proof
end

