-- ==== Sys2Proof/Decode.lean ====
section
/-! DEFINITION. Decoding a Word (spec/30_encoding.md R80 to R97) and, after it, the encode side (R98 to R100).
The decoder consults nothing but the Word and `OPMAP` (R84). -/

namespace Sys2Proof

/-! ### The fields of a Word (R81, R82, R86 to R92) -/

/-- Bits 15:12, the opcode (R81). -/
def opcodeField (w : Word) : BitVec 4 := w.extractLsb' 12 4

/-- Bits 11:9, the first register field: `rd` of I8, I6 and R, `f1` of M, `ra` of BC (R82). -/
def firstReg (w : Word) : Reg := (w.extractLsb' 9 3).toFin

/-- Bits 8:6, the second register field: `ra` of I6 and R, `f2` of M (R82). -/
def secondReg (w : Word) : Reg := (w.extractLsb' 6 3).toFin

/-- Bits 5:3, the third register field: `rb` of R (R82). -/
def thirdReg (w : Word) : Reg := (w.extractLsb' 3 3).toFin

/-- Bits 8:1: `imm8` of I8 (R86), `offset8` of BC (R90). -/
def field8 (w : Word) : BitVec 8 := w.extractLsb' 1 8

/-- Bits 5:0: `imm6` of I6 (R87), `addr6` of M (R88). -/
def field6 (w : Word) : BitVec 6 := w.extractLsb' 0 6

/-- Bits 11:4: `offset8` of BU (R91). -/
def offsetBU (w : Word) : BitVec 8 := w.extractLsb' 4 8

/-- The width of a format's zero field, which stands at the low end of the Word (R86 to R92). -/
def Format.zeroWidth : Format → Nat
  | .I8 => 1
  | .I6 => 0
  | .M => 0
  | .R => 3
  | .BC => 1
  | .BU => 4
  | .O => 12

/-- The value of a format's zero field in a Word (R94); 0 where the format has none. -/
def zeroField (f : Format) (w : Word) : Nat := w.toNat % 2 ^ f.zeroWidth

/-! ### `OPMAP` in both directions (R85) -/

/-- `OPMAP^-1(op)`: the mnemonic with opcode `op`, always defined (R84, R85). -/
def Opmap.mnemonicOf (om : Opmap) (op : BitVec 4) : Mnemonic := om[op.toFin]

/-- `OPMAP(m)`: the opcode of mnemonic `m` (R85). -/
def Opmap.opcodeOf (om : Opmap) (m : Mnemonic) : BitVec 4 := BitVec.ofNat 4 (om.toList.idxOf m)

/-! ### Decode -/

/-- Step (4) of R84: cut the fields of the mnemonic's format out of the Word. -/
def cutFields (m : Mnemonic) (w : Word) : Instr :=
  match m with
  | .LOADI => .loadi (firstReg w) (field8 w)
  | .LUI => .lui (firstReg w) (field8 w)
  | .LOAD => .load (firstReg w) (secondReg w) (field6 w)
  | .STORE => .store (firstReg w) (secondReg w) (field6 w)
  | .ADDI => .addi (firstReg w) (secondReg w) (field6 w)
  | .ADD => .add (firstReg w) (secondReg w) (thirdReg w)
  | .SUB => .sub (firstReg w) (secondReg w) (thirdReg w)
  | .AND => .and (firstReg w) (secondReg w) (thirdReg w)
  | .OR => .or (firstReg w) (secondReg w) (thirdReg w)
  | .SHFT => .shft (firstReg w) (secondReg w) (thirdReg w)
  | .BEQ => .beq (firstReg w) (field8 w)
  | .BNE => .bne (firstReg w) (field8 w)
  | .B => .b (offsetBU w)
  | .CALL => .call (offsetBU w)
  | .RET => .ret
  | .HALT => .halt

/-- The decode function of R84: total on every Word, and the only Words it rejects are those whose zero field is not 0
(R94), by `DecodeError`. -/
def decode (om : Opmap) (w : Word) : Except CoreError Instr :=
  let m := om.mnemonicOf (opcodeField w)
  if zeroField m.format w = 0 then .ok (cutFields m w) else .error (.decodeError w)

/-- The record that R84 step (6) returns and that the latch `dec` holds (R32). -/
structure Decoded where
  /-- bits 15:12 of the raw Word -/
  opcode : BitVec 4
  /-- the mnemonic -/
  mnemonic : Mnemonic
  /-- its format -/
  format : Format
  /-- the fields the format has -/
  fields : Instr
  /-- the zero field's value: 0 in every record -/
  zero : Nat
  /-- the raw Word -/
  raw : Word
  deriving DecidableEq, Repr

/-- The record of a Word that decodes to `i` (R84 step 6). -/
def decodedRecord (w : Word) (i : Instr) : Decoded where
  opcode := opcodeField w
  mnemonic := i.mnemonic
  format := i.mnemonic.format
  fields := i
  zero := zeroField i.mnemonic.format w
  raw := w

/-- `dec` as the function of `ir` and `OPMAP` that R32 says it is; absent where `ir` does not decode.  DESIGN CHOICE, unsafe
(notes/assumptions/26.md). -/
def latchOf (om : Opmap) (w : Word) : Option Decoded :=
  match decode om w with
  | .ok i => some (decodedRecord w i)
  | .error _ => none

/-- The decoder on a table word: bit 0 of `w` is the least significant bit of the Word, the bits from `nbits` up are 0,
and `OPMAP` is the default one, which spec/opcode_table.json is written in.  DESIGN CHOICE, unsafe
(notes/assumptions/2.md). -/
def decodeTableWord (nbits w : Nat) : Option Instr :=
  match decode defaultOpmap (BitVec.ofNat 16 (w % 2 ^ nbits)) with
  | .ok i => some i
  | .error _ => none

/-! ### Encode (assembler side) -/

/-- A register index as the 3 bits of its field (R82). -/
def regBits (r : Reg) : BitVec 3 := BitVec.ofFin r

/-- Step (3) of R98: the fields packed at the positions of R86 to R92, the zero field 0, the opcode `OPMAP(m)`. -/
def encode (om : Opmap) (i : Instr) : Word :=
  let op := om.opcodeOf i.mnemonic
  match i with
  | .loadi rd imm8 => op ++ regBits rd ++ imm8 ++ 0#1
  | .lui rd imm8 => op ++ regBits rd ++ imm8 ++ 0#1
  | .load f1 f2 addr6 => op ++ regBits f1 ++ regBits f2 ++ addr6
  | .store f1 f2 addr6 => op ++ regBits f1 ++ regBits f2 ++ addr6
  | .addi rd ra imm6 => op ++ regBits rd ++ regBits ra ++ imm6
  | .add rd ra rb => op ++ regBits rd ++ regBits ra ++ regBits rb ++ 0#3
  | .sub rd ra rb => op ++ regBits rd ++ regBits ra ++ regBits rb ++ 0#3
  | .and rd ra rb => op ++ regBits rd ++ regBits ra ++ regBits rb ++ 0#3
  | .or rd ra rb => op ++ regBits rd ++ regBits ra ++ regBits rb ++ 0#3
  | .shft rd ra rb => op ++ regBits rd ++ regBits ra ++ regBits rb ++ 0#3
  | .beq ra offset8 => op ++ regBits ra ++ offset8 ++ 0#1
  | .bne ra offset8 => op ++ regBits ra ++ offset8 ++ 0#1
  | .b offset8 => op ++ offset8 ++ 0#4
  | .call offset8 => op ++ offset8 ++ 0#4
  | .ret => op ++ 0#12
  | .halt => op ++ 0#12

/-- Why the encode function of R98 answers no Word.  DESIGN CHOICE, unsafe (notes/assumptions/28.md). -/
inductive EncodeError where
  /-- a register index outside [0, 7]: "else register-range error" (`OperandRangeError`, R98) -/
  | raised (e : CoreError)
  /-- the list does not hold one operand per field: not an error of the spec, whose operands come one per field -/
  | operandCount
  deriving DecidableEq, Repr

/-- Step (1) of R98 on one operand: a register index must be in 0 to 7. -/
def regOperand (v : Int) : Except EncodeError Reg :=
  if regInRange v then .ok (BitVec.ofInt 3 v).toFin else .error (.raised (.operandRangeError v))

/-- Steps (1) and (2) of R98: registers checked from the most significant field down, immediates and offsets masked to
their field width.  The operands are listed in the order of the fields in the Word. -/
def assembleInstr (m : Mnemonic) (ops : List Int) : Except EncodeError Instr :=
  let regImm8 (mk : Reg → BitVec 8 → Instr) : Except EncodeError Instr :=
    match ops with
    | [r, v] => match regOperand r with
      | .ok r => .ok (mk r (BitVec.ofInt 8 v))
      | .error e => .error e
    | _ => .error .operandCount
  let regRegImm6 (mk : Reg → Reg → BitVec 6 → Instr) : Except EncodeError Instr :=
    match ops with
    | [p, q, v] => match regOperand p, regOperand q with
      | .ok p, .ok q => .ok (mk p q (BitVec.ofInt 6 v))
      | .error e, _ => .error e
      | .ok _, .error e => .error e
    | _ => .error .operandCount
  let threeRegs (mk : Reg → Reg → Reg → Instr) : Except EncodeError Instr :=
    match ops with
    | [p, q, r] => match regOperand p, regOperand q, regOperand r with
      | .ok p, .ok q, .ok r => .ok (mk p q r)
      | .error e, _, _ => .error e
      | .ok _, .error e, _ => .error e
      | .ok _, .ok _, .error e => .error e
    | _ => .error .operandCount
  let offset (mk : BitVec 8 → Instr) : Except EncodeError Instr :=
    match ops with
    | [v] => .ok (mk (BitVec.ofInt 8 v))
    | _ => .error .operandCount
  let noOperand (i : Instr) : Except EncodeError Instr :=
    match ops with
    | [] => .ok i
    | _ => .error .operandCount
  match m with
  | .LOADI => regImm8 .loadi
  | .LUI => regImm8 .lui
  | .LOAD => regRegImm6 .load
  | .STORE => regRegImm6 .store
  | .ADDI => regRegImm6 .addi
  | .ADD => threeRegs .add
  | .SUB => threeRegs .sub
  | .AND => threeRegs .and
  | .OR => threeRegs .or
  | .SHFT => threeRegs .shft
  | .BEQ => regImm8 .beq
  | .BNE => regImm8 .bne
  | .B => offset .b
  | .CALL => offset .call
  | .RET => noOperand .ret
  | .HALT => noOperand .halt

/-- The encode function `encode(m, operands)` of R98. -/
def assemble (om : Opmap) (m : Mnemonic) (ops : List Int) : Except EncodeError Word :=
  match assembleInstr m ops with
  | .ok i => .ok (encode om i)
  | .error e => .error e

/-- The operands of an instruction, most significant field first, `imm8` as the unsigned and every other immediate as
the signed integer it stands for (R93, R99). -/
def Instr.operands : Instr → List Int
  | .loadi rd imm8 => [rd.val, imm8.toNat]
  | .lui rd imm8 => [rd.val, imm8.toNat]
  | .load f1 f2 addr6 => [f1.val, f2.val, addr6.toInt]
  | .store f1 f2 addr6 => [f1.val, f2.val, addr6.toInt]
  | .addi rd ra imm6 => [rd.val, ra.val, imm6.toInt]
  | .add rd ra rb => [rd.val, ra.val, rb.val]
  | .sub rd ra rb => [rd.val, ra.val, rb.val]
  | .and rd ra rb => [rd.val, ra.val, rb.val]
  | .or rd ra rb => [rd.val, ra.val, rb.val]
  | .shft rd ra rb => [rd.val, ra.val, rb.val]
  | .beq ra offset8 => [ra.val, offset8.toInt]
  | .bne ra offset8 => [ra.val, offset8.toInt]
  | .b offset8 => [offset8.toInt]
  | .call offset8 => [offset8.toInt]
  | .ret => []
  | .halt => []

/-- The offset an assembler encodes for an instruction at address `a` and a label at address `t` (R100):
`(t - a - 1) mod 256`. -/
def labelOffset (a t : Word) : BitVec 8 := BitVec.ofInt 8 ((t.toNat : Int) - (a.toNat : Int) - 1)

end Sys2Proof
end

