-- ==== Sys2Proof/Machine/State.lean ====
section
/-! DEFINITION. The state of the machine (spec/10_state.md R20), the reasons it can stop, and the state at construction
(R36). -/

namespace Sys2Proof.Machine

/-- One address space (R50): a list of (address, Word) pairs, the Word being the smallest addressable unit.  An
address that is not listed reads 0x0000 (R51, R52).  The canonical form is `Memory.wf` of Machine/Ops.lean.
DESIGN CHOICE of the form, safe (notes/assumptions/8.md). -/
abbrev Memory := List (Nat × Word)

/-- The complete state of R20, and the parameters the machine was constructed with. -/
structure State where
  /-- the eight general registers (R22) -/
  x : Vector Word 8
  /-- the program counter, a Word index into instruction memory (R25); inside a tick, after fetch, it is `seq` (R122) -/
  pc : Word
  /-- the stack pointer, the address of the next free slot of the stack (R28) -/
  sp : Word
  /-- the flags register (R29) -/
  flags : Flags
  /-- the instruction register, the "last-fetched raw word" (R31) -/
  ir : Word
  /-- the decoded-instruction latch (R32) -/
  dec : Option Decoded
  /-- the run state: `true` is halted (R33) -/
  halted : Bool
  /-- instruction memory (R51) -/
  imem : Memory
  /-- data memory (R52) -/
  dmem : Memory
  /-- THE MODEL'S OWN FIELD, not state of the machine (R21): the parameters of R6, "fixed at construction"; no step
  changes it (notes/assumptions/1.md) -/
  cfg : Config
  deriving DecidableEq, Repr

/-- The four errors that end a tick and stop the machine (R200, R206), each with the information R201 to R205 record;
`at_` is the address of the instruction.  Raising one is what the spec says the machine does; where the spec decided
for a stop in the source's silence (D8 to D11) the stop is safe. -/
inductive Fault where
  /-- R201, raised by the decode step for a Word whose zero field is not 0: safe, the spec's own stop -/
  | decodeError (raw : Word) (at_ : Word)
  /-- R202, raised by fetch at the top of instruction memory, by a branch, B or CALL whose target is out of range, by
  LOAD and STORE for an effective address out of range, by CALL and RET outside the stack region: safe -/
  | operandRangeError (a : Int) (at_ : Word)
  /-- R203, raised by LOAD and STORE for an effective address in the stack region: safe -/
  | protectedRegionError (a : Int) (at_ : Word)
  /-- R205, raised by the ALU for a control code that selects nothing; no instruction raises it under an admitted
  `ALU_CTRL_MAP`: safe -/
  | aluControlError (ctrl : BitVec 3)
  deriving DecidableEq, Repr

/-- Why an instruction has no meaning here. -/
inductive Refusal where
  /-- raised by an arm of `exec` that has no meaning yet: safe.  No arm of this model raises it. -/
  | notModelled (mnemonic : String)
  deriving DecidableEq, Repr

/-- The machine right after construction with every parameter at its default and nothing loaded (R36, R230): `pc` 0,
`sp` at the top of the stack region and running are the source's; registers, flags and `ir` are the defaults of D15
(notes/assumptions/3.md, 4.md, 5.md). -/
def State.reset : State where
  x := defaultRegInit
  pc := 0x0000
  sp := defaultConfig.stackHi
  flags := defaultFlagsInit
  ir := defaultIrInit
  dec := latchOf defaultConfig.opmap defaultIrInit
  halted := false
  imem := []
  dmem := []
  cfg := defaultConfig

end Sys2Proof.Machine
end

