-- ==== Sys2Proof/Machine/Flags.lean ====
section
/-! DEFINITION. The ALU as a unit: its control code, its five operations and the flags they leave
(spec/41_alu.md R140 to R152). -/

namespace Sys2Proof.Machine

/-- What an operation hands to the end of `alu` (R142): the result Word, carry and overflow. -/
abbrev AluPart := Word × Bool × Bool

/-- The overflow test of R144: operands of equal sign, result of differing sign. -/
def overflows (a b r : Word) : Bool := a.msb == b.msb && r.msb != a.msb

/-- ADD (R144): carry is the unsigned carry out of bit 15. -/
def aluAdd (a b : Word) : AluPart :=
  let r := a + b
  (r, decide (a.toNat + b.toNat > 0xFFFF), overflows a b r)

/-- SUB (R145): `a` plus the two's-complement negation of `b`.  Carry is the unsigned comparison and nothing else;
overflow is the ADD test on `a` and the negated operand, also at `b = 0x8000` (conflict C8).  DEDUCED, unsafe
(notes/assumptions/25.md). -/
def aluSub (a b : Word) : AluPart :=
  let nb := -b
  let r := a + nb
  (r, decide (a.toNat ≥ b.toNat), overflows a nb r)

/-- AND (R146): carry and overflow stay cleared. -/
def aluAnd (a b : Word) : AluPart := (a &&& b, false, false)

/-- OR (R147): carry and overflow stay cleared. -/
def aluOr (a b : Word) : AluPart := (a ||| b, false, false)

/-- Bit 15 of the shift control Word: 1 shifts right (R149).  DESIGN CHOICE, unsafe (notes/assumptions/16.md). -/
def shiftRight (b : Word) : Bool := b.msb

/-- Bits 3:0 of the shift control Word: the amount, 0 to 15 (R149); bits 14:4 are read by nothing.  DESIGN CHOICE,
unsafe (notes/assumptions/16.md). -/
def shiftAmount (b : Word) : Nat := (b.extractLsb' 0 4).toNat

/-- SHFT (R148): amount 0 keeps the carry from before; otherwise carry is the last bit shifted out.  The right shift is
logical (D13); overflow stays cleared (D14).  DESIGN CHOICE, unsafe (notes/assumptions/17.md, 18.md). -/
def aluShft (a b : Word) (c0 : Bool) : AluPart :=
  let n := shiftAmount b
  if n = 0 then (a, c0, false)
  else if shiftRight b then (a >>> n, a.getLsbD (n - 1), false)
  else (a <<< n, a.getLsbD (16 - n), false)

/-- The operation selected, on masked operands, with the flags cleared: carry from before reaches SHFT alone (R142). -/
def aluOperate (op : AluOp) (a b : Word) (c0 : Bool) : AluPart :=
  match op with
  | .add => aluAdd a b
  | .sub => aluSub a b
  | .and => aluAnd a b
  | .or => aluOr a b
  | .shft => aluShft a b c0

/-- N and Z of every operation, from its result (R143), beside the operation's C and V. -/
def withResultFlags (p : AluPart) : Word × Flags :=
  let (r, c, v) := p
  (r, ⟨r.msb, decide (r = 0), c, v⟩)

/-- The ALU's `decode(control_bits)`: codes 0 to 4 select, 5 to 7 raise `AluControlError` (R141, R151). -/
def aluSelect (cm : AluCtrlMap) (ctrl : BitVec 3) : Except CoreError AluOp :=
  match cm.toList[ctrl.toNat]? with
  | some op => .ok op
  | none => .error (.aluControlError ctrl)

/-- The function `alu(ctrl, a, b, (N,Z,C,V))` of R142, under an `ALU_CTRL_MAP`: both operands are masked first. -/
def alu (cm : AluCtrlMap) (ctrl : BitVec 3) (a b : Int) (f : Flags) : Except CoreError (Word × Flags) :=
  match aluSelect cm ctrl with
  | .ok op => .ok (withResultFlags (aluOperate op (wordOfInt a) (wordOfInt b) f.c))
  | .error e => .error e

/-- The control code the core presents for an operation: the core and the ALU use the same map (R141). -/
def aluCode (cm : AluCtrlMap) (op : AluOp) : BitVec 3 := BitVec.ofNat 3 (cm.toList.idxOf op)

end Sys2Proof.Machine
end

