-- ==== Sys2Proof/Machine/Operands.lean ====
section
/-! DEFINITION. How the fields of an instruction become operands (spec/30_encoding.md R93), the one addressing mode
(spec/42_data_movement.md R172) and the relative target (spec/44_control_transfer.md R190).  These additions are made
outside the ALU and touch no flag (R125, D22). -/

namespace Sys2Proof.Machine

/-- `sext_n(v)` of R9: the field read as a two's-complement integer. -/
def sext {n : Nat} (v : BitVec n) : Int := if 2 * v.toNat < 2 ^ n then v.toNat else (v.toNat : Int) - 2 ^ n

/-- `zext_8(imm8)` as the Word LOADI writes (R170). -/
def zext8 (imm8 : BitVec 8) : Word := imm8.setWidth 16

/-- The Word LUI writes: the immediate in bits 15:8, the old bits 7:0 below it (R171). -/
def upperByte (imm8 : BitVec 8) (old : Word) : Word := imm8 ++ old.extractLsb' 0 8

/-- ADDI's operand `b`: `sext_6(imm6) mod 65536` (R93, R180). -/
def addiOperand (imm6 : BitVec 6) : Word := wordOfInt (sext imm6)

/-- The effective address of LOAD and STORE, an integer that may lie outside 16 bits (R172).
DESIGN CHOICE, safe (notes/assumptions/14.md). -/
def effectiveAddress (base : Word) (addr6 : BitVec 6) : Int := base.toNat + sext addr6

/-- STORE's fields by role, (data register, base register): `f1` and `f2` by default, the other way round under
`STORE_BASE_FIELD = f1` (R88, D3).  DESIGN CHOICE, unsafe (notes/assumptions/9.md). -/
def storeRoles (c : Config) (f1 f2 : Reg) : Reg × Reg :=
  match c.storeBase with
  | .f2 => (f1, f2)
  | .f1 => (f2, f1)

/-- `a` names a location of an address space: it lies in [0, 0xFFFF] (R50). -/
def inAddressSpace (a : Int) : Bool := decide (0 ≤ a) && decide (a.toNat ≤ 0xFFFF)

/-- An integer about to become the program counter: outside [0, 0xFFFF] it raises `OperandRangeError`, or is reduced
modulo 65536 under `PC_OVERFLOW = wrap` (R27, D10).  DESIGN CHOICE, safe under `fault`, unsafe under `wrap`
(notes/assumptions/12.md). -/
def pcAddress (c : Config) (a : Int) : Except CoreError Word :=
  if inAddressSpace a then .ok (wordOfInt a)
  else match c.pcOverflow with
    | .fault => .error (.operandRangeError a)
    | .wrap => .ok (wordOfInt a)

/-- `seq = pc + 1` with its range check (R122). -/
def seqAddress (c : Config) (pc : Word) : Except CoreError Word := pcAddress c ((pc.toNat : Int) + 1)

/-- `target(offset8) = seq + sext_8(offset8)` with its range check (R190).  DESIGN CHOICE, unsafe (notes/assumptions/11.md). -/
def branchTarget (c : Config) (seq : Word) (offset8 : BitVec 8) : Except CoreError Word :=
  pcAddress c ((seq.toNat : Int) + sext offset8)

end Sys2Proof.Machine
end

