-- ==== Sys2Proof/Machine/Ops.lean ====
section
/-! DEFINITION. The named operations over memory and registers (spec/20_memory.md), raising an error
(spec/60_exceptions.md R206), the fetch and decode steps (spec/40_tick_cycle.md R122, R123) and construction
(spec/70_reset_and_hazards.md R230, R232).  The machine has no trap entry and no trap return (R206, R209): taking an
error is `raise`, which commits nothing. -/

namespace Sys2Proof.Machine

/-! ### One address space -/

/-- The Word at an address; 0x0000 where nothing is listed (R51, R52). -/
def Memory.read : Memory → Nat → Word
  | [], _ => 0
  | (b, w) :: m, a => if a = b then w else Memory.read m a

/-- Put a Word at an address, keeping the addresses rising and listing no 0x0000. -/
def Memory.write : Memory → Nat → Word → Memory
  | [], a, v => if v = 0 then [] else [(a, v)]
  | (b, w) :: m, a, v =>
    if a < b then (if v = 0 then (b, w) :: m else (a, v) :: (b, w) :: m)
    else if a = b then (if v = 0 then m else (a, v) :: m)
    else (b, w) :: Memory.write m a v

/-- The canonical form from address `lo` up. -/
def Memory.wfFrom : Nat → Memory → Bool
  | _, [] => true
  | lo, (a, v) :: m => decide (lo ≤ a) && decide (a < addressLimit) && decide (v ≠ 0) && Memory.wfFrom (a + 1) m

/-- The canonical form: addresses strictly rising, all of them in the space, no entry 0x0000. -/
def Memory.wf (m : Memory) : Bool := Memory.wfFrom 0 m

/-! ### Access paths -/

/-- `IMemRead(a)` (R51): never faults. -/
def imemRead (m : Memory) (a : Word) : Word := m.read a.toNat

/-- The stack region [`STACK_LO`, `STACK_HI`] of data memory (R53). -/
def inStackRegion (c : Config) (a : Int) : Bool := decide ((c.stackLo.toNat : Int) ≤ a) && decide (a ≤ c.stackHi.toNat)

/-- The checks of the ordinary path, in their order (R56, R57).  DESIGN CHOICE on the read side, safe
(notes/assumptions/14.md, 15.md). -/
def ordinaryCheck (c : Config) (a : Int) : Except CoreError Nat :=
  if inAddressSpace a = false then .error (.operandRangeError a)
  else if inStackRegion c a then .error (.protectedRegionError a)
  else .ok a.toNat

/-- The check of the stack path (R59, R60).  DESIGN CHOICE, safe (notes/assumptions/13.md). -/
def stackCheck (c : Config) (a : Int) : Except CoreError Nat :=
  if inStackRegion c a then .ok a.toNat else .error (.operandRangeError a)

/-- `MemRead(a, 1)`, the ordinary read path of LOAD (R56). -/
def memRead (c : Config) (m : Memory) (a : Int) : Except CoreError Word :=
  match ordinaryCheck c a with
  | .ok k => .ok (m.read k)
  | .error e => .error e

/-- `MemWrite(a, 1, v)`, the ordinary write path of STORE (R57). -/
def memWrite (c : Config) (m : Memory) (a : Int) (v : Word) : Except CoreError Memory :=
  match ordinaryCheck c a with
  | .ok k => .ok (m.write k v)
  | .error e => .error e

/-- `StackRead(a)`, the stack path of RET (R59). -/
def stackRead (c : Config) (m : Memory) (a : Int) : Except CoreError Word :=
  match stackCheck c a with
  | .ok k => .ok (m.read k)
  | .error e => .error e

/-- `StackWrite(a, v)`, the stack path of CALL (R60). -/
def stackWrite (c : Config) (m : Memory) (a : Int) (v : Word) : Except CoreError Memory :=
  match stackCheck c a with
  | .ok k => .ok (m.write k v)
  | .error e => .error e

/-- Whether a program is being loaded or running: what gates a write to instruction memory (R51). -/
inductive Phase where
  | loading | running
  deriving DecidableEq, Repr

/-- The instruction memory's own write: "permitted only during program loading, never during execution" (R51, R203).
No instruction uses it; the load of R232 does.  DESIGN CHOICE, safe (notes/assumptions/29.md). -/
def imemWrite (ph : Phase) (m : Memory) (a : Int) (v : Word) : Except CoreError Memory :=
  match ph with
  | .running => .error (.protectedRegionError a)
  | .loading => if inAddressSpace a then .ok (m.write a.toNat v) else .error (.operandRangeError a)

/-! ### Registers and the other fields -/

/-- `x[r]` (R9, R22). -/
def State.getReg (s : State) (r : Reg) : Word := s.x[r]

/-- `x[r] <- v` (R9). -/
def State.setReg (s : State) (r : Reg) (v : Word) : State := { s with x := s.x.set r v }

/-- The register file's read port with its bounds check (R23); the core's indices are 3-bit fields and always pass. -/
def regFileRead (x : Vector Word 8) (i : Int) : Except CoreError Word :=
  if regInRange i then .ok x[(BitVec.ofInt 3 i).toFin] else .error (.operandRangeError i)

/-- The register file's write port with its bounds check (R23). -/
def regFileWrite (x : Vector Word 8) (i : Int) (v : Word) : Except CoreError (Vector Word 8) :=
  if regInRange i then .ok (x.set (BitVec.ofInt 3 i).toNat v (BitVec.ofInt 3 i).isLt) else .error (.operandRangeError i)

/-- `pc <- a`. -/
def State.setPc (s : State) (a : Word) : State := { s with pc := a }

/-- `sp <- a`. -/
def State.setSp (s : State) (a : Word) : State := { s with sp := a }

/-- The ALU replaces the flags (R125). -/
def State.setFlags (s : State) (f : Flags) : State := { s with flags := f }

/-- Data memory after an access. -/
def State.setDmem (s : State) (m : Memory) : State := { s with dmem := m }

/-- `halted <- 1` (R195). -/
def State.halt (s : State) : State := { s with halted := true }

/-- The fetch step's writes: `ir <- w`, and `seq` as the program counter for the rest of the tick (R122). -/
def State.fetched (s : State) (w seq : Word) : State := { s with ir := w, pc := seq }

/-- The decode step's write: `dec <- decode(ir)` (R123). -/
def State.latched (s : State) (i : Instr) : State := { s with dec := some (decodedRecord s.ir i) }

/-- The boolean a completed or no-op tick returns, from the state it leaves (R121, R128).  DESIGN CHOICE, unsafe
(notes/assumptions/21.md). -/
def State.tickResult (s : State) : Bool := !s.halted

/-! ### Raising an error -/

/-- The address of the executing instruction: `seq - 1` (R201 to R203 record it).  DEDUCED, unsafe
(notes/assumptions/23.md). -/
def State.instrAddress (s : State) : Word := s.pc - 1

/-- The error with the address of the instruction that raised it. -/
def Fault.ofError (e : CoreError) (at_ : Word) : Fault :=
  match e with
  | .decodeError raw => .decodeError raw at_
  | .operandRangeError a => .operandRangeError a at_
  | .protectedRegionError a => .protectedRegionError a at_
  | .aluControlError ctrl => .aluControlError ctrl

/-- The error code of R200.  DESIGN CHOICE, unsafe (notes/assumptions/23.md). -/
def Fault.code : Fault → Nat
  | .decodeError _ _ => 1
  | .operandRangeError _ _ => 2
  | .protectedRegionError _ _ => 3
  | .aluControlError _ => 4

/-- `raise E(info)` inside an instruction rule: the tick ends with the fault and commits nothing (R9, R206).  Nothing is
saved, no mode changes, no handler runs.  DESIGN CHOICE, safe (notes/assumptions/22.md). -/
def raise (s : State) (e : CoreError) : Host.Outcome State Fault Refusal := .fault (.ofError e s.instrAddress)

/-! ### The ALU inside a tick -/

/-- Present an operation's control code and two Words to the ALU, write the result to `x[rd]` and replace the flags
(R125). -/
def aluToReg (op : AluOp) (rd : Reg) (a b : Word) (s : State) : Host.Outcome State Fault Refusal :=
  match alu s.cfg.aluCtrl (aluCode s.cfg.aluCtrl op) a.toNat b.toNat s.flags with
  | .ok (r, f) => .next ((s.setReg rd r).setFlags f)
  | .error e => raise s e

/-! ### Control transfer -/

/-- `pc <- target(offset8)` (R190). -/
def jump (offset8 : BitVec 8) (s : State) : Host.Outcome State Fault Refusal :=
  match branchTarget s.cfg s.pc offset8 with
  | .ok t => .next (s.setPc t)
  | .error e => raise s e

/-! ### The steps of a tick before execute -/

/-- Step 1, fetch (R122). -/
def fetch (s : State) : Except Fault State :=
  match seqAddress s.cfg s.pc with
  | .ok seq => .ok (s.fetched (imemRead s.imem s.pc) seq)
  | .error e => .error (.ofError e s.pc)

/-- Step 2, decode (R123): the instruction, and the state with it latched. -/
def decodeStep (s : State) : Except Fault (Instr × State) :=
  match decode s.cfg.opmap s.ir with
  | .ok i => .ok (i, s.latched i)
  | .error e => .error (.ofError e s.instrAddress)

/-- Fetch, then decode: the instruction of the tick and the state its rule runs in. -/
def fetchDecode (s : State) : Except Fault (Instr × State) :=
  match fetch s with
  | .ok s' => decodeStep s'
  | .error f => .error f

/-- Store a Word where the next fetch reads, in a running core (for `withFetchWord`).  DESIGN CHOICE,
unsafe (notes/assumptions/24.md). -/
def placeFetchWord (s : State) (w : Word) : State := { s with imem := s.imem.write s.pc.toNat w, halted := false }

/-! ### Construction -/

/-- `PROGRAM` loaded from address `a` up, over the load path (R51, R232). -/
def loadProgram : Memory → Nat → List Word → Except CoreError Memory
  | m, _, [] => .ok m
  | m, a, w :: ws =>
    match imemWrite .loading m a w with
    | .ok m' => loadProgram m' (a + 1) ws
    | .error e => .error e

/-- `DMEM_INIT` put into an empty data memory, assignment after assignment (R36, R69).  DESIGN CHOICE,
safe (notes/assumptions/31.md). -/
def loadData : Memory → List (Word × Word) → Memory
  | m, [] => m
  | m, (a, v) :: rest => loadData (m.write a.toNat v) rest

/-- Construction, the machine's only reset (R36, R230 to R232). -/
def construct (c : Config) (l : Launch) : Except CoreError State :=
  match loadProgram [] 0 l.program with
  | .ok im => .ok {
      x := l.regInit
      pc := 0x0000
      sp := c.stackHi
      flags := l.flagsInit
      ir := l.irInit
      dec := latchOf c.opmap l.irInit
      halted := false
      imem := im
      dmem := loadData [] l.dmemInit
      cfg := c }
  | .error e => .error e

end Sys2Proof.Machine
end

