-- ==== Sys2Proof/Machine/AluInstructions.lean ====
section
/-! DEFINITION. ADDI, ADD, SUB, AND, OR, SHFT (spec/43_alu_instructions.md): each presents one operation to the ALU,
writes one register and all four flags. -/

namespace Sys2Proof.Machine

/-- ADDI (R180): the ADD operation with the sign-extended immediate as operand `b`. -/
def execAddi (rd ra : Reg) (imm6 : BitVec 6) (s : State) : Host.Outcome State Fault Refusal :=
  aluToReg .add rd (s.getReg ra) (addiOperand imm6) s

/-- ADD (R181). -/
def execAdd (rd ra rb : Reg) (s : State) : Host.Outcome State Fault Refusal :=
  aluToReg .add rd (s.getReg ra) (s.getReg rb) s

/-- SUB (R182): minuend `x[ra]`, subtrahend `x[rb]`. -/
def execSub (rd ra rb : Reg) (s : State) : Host.Outcome State Fault Refusal :=
  aluToReg .sub rd (s.getReg ra) (s.getReg rb) s

/-- AND (R183). -/
def execAnd (rd ra rb : Reg) (s : State) : Host.Outcome State Fault Refusal :=
  aluToReg .and rd (s.getReg ra) (s.getReg rb) s

/-- OR (R184). -/
def execOr (rd ra rb : Reg) (s : State) : Host.Outcome State Fault Refusal :=
  aluToReg .or rd (s.getReg ra) (s.getReg rb) s

/-- SHFT (R185): `x[ra]` shifted as `x[rb]` says. -/
def execShft (rd ra rb : Reg) (s : State) : Host.Outcome State Fault Refusal :=
  aluToReg .shft rd (s.getReg ra) (s.getReg rb) s

end Sys2Proof.Machine
end

