-- ==== Sys2Proof/Machine/ControlTransfer.lean ====
section
/-! DEFINITION. BEQ, BNE, B, CALL, RET, HALT (spec/44_control_transfer.md).  `s.pc` is `seq`.  None touches a flag or a
general register. -/

namespace Sys2Proof.Machine

/-- BEQ (R191): `ra` is not read; a branch not taken computes no target.  DESIGN CHOICE, unsafe
(notes/assumptions/10.md). -/
def execBeq (_ra : Reg) (offset8 : BitVec 8) (s : State) : Host.Outcome State Fault Refusal :=
  if s.flags.z then jump offset8 s else .next s

/-- BNE (R192): `ra` is not read; a branch not taken computes no target.  DESIGN CHOICE, unsafe
(notes/assumptions/10.md). -/
def execBne (_ra : Reg) (offset8 : BitVec 8) (s : State) : Host.Outcome State Fault Refusal :=
  if s.flags.z then .next s else jump offset8 s

/-- B (R196). -/
def execB (offset8 : BitVec 8) (s : State) : Host.Outcome State Fault Refusal := jump offset8 s

/-- CALL (R193): the stack check before the target check (R204); `seq` is stored at the old `sp`, then `sp` goes down.
DESIGN CHOICE, unsafe (notes/assumptions/19.md, 20.md). -/
def execCall (offset8 : BitVec 8) (s : State) : Host.Outcome State Fault Refusal :=
  match stackWrite s.cfg s.dmem s.sp.toNat s.pc with
  | .error e => raise s e
  | .ok m =>
    match branchTarget s.cfg s.pc offset8 with
    | .error e => raise s e
    | .ok t => .next (((s.setDmem m).setSp (s.sp - 1)).setPc t)

/-- The address RET pops: `sp + 1`, an integer (R194). -/
def popAddress (s : State) : Int := (s.sp.toNat : Int) + 1

/-- RET (R194): `sp` goes up first and the return address is read there (conflict C2).  DESIGN CHOICE, unsafe
(notes/assumptions/19.md). -/
def execRet (s : State) : Host.Outcome State Fault Refusal :=
  match stackRead s.cfg s.dmem (popAddress s) with
  | .error e => raise s e
  | .ok v => .next ((s.setSp (wordOfInt (popAddress s))).setPc v)

/-- HALT (R195). -/
def execHalt (s : State) : Host.Outcome State Fault Refusal := .next s.halt

end Sys2Proof.Machine
end

