-- ==== Sys2Proof/Machine/DataMovement.lean ====
section
/-! DEFINITION. LOADI, LUI, LOAD, STORE (spec/42_data_movement.md).  A meaning runs after fetch and decode: `s.pc` is
`seq`, so an instruction that leaves `pc` alone has `pc <- seq` (R26, R122).  No flag is touched. -/

namespace Sys2Proof.Machine

/-- LOADI (R170). -/
def execLoadi (rd : Reg) (imm8 : BitVec 8) (s : State) : Host.Outcome State Fault Refusal :=
  .next (s.setReg rd (zext8 imm8))

/-- LUI (R171). -/
def execLui (rd : Reg) (imm8 : BitVec 8) (s : State) : Host.Outcome State Fault Refusal :=
  .next (s.setReg rd (upperByte imm8 (s.getReg rd)))

/-- LOAD (R173): the address uses the old value of the base also when `f1 = f2`. -/
def execLoad (f1 f2 : Reg) (addr6 : BitVec 6) (s : State) : Host.Outcome State Fault Refusal :=
  match memRead s.cfg s.dmem (effectiveAddress (s.getReg f2) addr6) with
  | .ok v => .next (s.setReg f1 v)
  | .error e => raise s e

/-- The effective address of a STORE in a state (R172), with the base field of `STORE_BASE_FIELD`. -/
def storeAddress (f1 f2 : Reg) (addr6 : BitVec 6) (s : State) : Int :=
  effectiveAddress (s.getReg (storeRoles s.cfg f1 f2).2) addr6

/-- STORE (R174). -/
def execStore (f1 f2 : Reg) (addr6 : BitVec 6) (s : State) : Host.Outcome State Fault Refusal :=
  match memWrite s.cfg s.dmem (storeAddress f1 f2 addr6 s) (s.getReg (storeRoles s.cfg f1 f2).1) with
  | .ok m => .next (s.setDmem m)
  | .error e => raise s e

end Sys2Proof.Machine
end

