-- ==== Sys2Proof/Machine/Dispatch.lean ====
section
/-! DEFINITION. Step 3 of a tick, execute: the dispatch on the decoded instruction (spec/40_tick_cycle.md R124). -/

namespace Sys2Proof.Machine

/-- Execute (R124): 16 exhaustive cases. -/
def exec (i : Instr) (s : State) : Host.Outcome State Fault Refusal :=
  match i with
  | .loadi rd imm8 => Sys2Proof.Machine.execLoadi rd imm8 s
  | .lui rd imm8 => Sys2Proof.Machine.execLui rd imm8 s
  | .load f1 f2 addr6 => Sys2Proof.Machine.execLoad f1 f2 addr6 s
  | .store f1 f2 addr6 => Sys2Proof.Machine.execStore f1 f2 addr6 s
  | .addi rd ra imm6 => Sys2Proof.Machine.execAddi rd ra imm6 s
  | .add rd ra rb => Sys2Proof.Machine.execAdd rd ra rb s
  | .sub rd ra rb => Sys2Proof.Machine.execSub rd ra rb s
  | .and rd ra rb => Sys2Proof.Machine.execAnd rd ra rb s
  | .or rd ra rb => Sys2Proof.Machine.execOr rd ra rb s
  | .shft rd ra rb => Sys2Proof.Machine.execShft rd ra rb s
  | .beq ra offset8 => Sys2Proof.Machine.execBeq ra offset8 s
  | .bne ra offset8 => Sys2Proof.Machine.execBne ra offset8 s
  | .b offset8 => Sys2Proof.Machine.execB offset8 s
  | .call offset8 => Sys2Proof.Machine.execCall offset8 s
  | .ret => Sys2Proof.Machine.execRet s
  | .halt => Sys2Proof.Machine.execHalt s

end Sys2Proof.Machine
end

