-- ==== Sys2Proof/Machine/Step.lean ====
section
/-! DEFINITION. One tick (spec/40_tick_cycle.md R120 to R127). -/

namespace Sys2Proof.Machine

/-- The tick: a no-op of a halted core (R121); otherwise fetch, decode, execute, committing together what they wrote or,
on an error, nothing (R127). -/
def step (s : State) : Host.Outcome State Fault Refusal :=
  if s.halted then .next s
  else
    match fetchDecode s with
    | .error f => .fault f
    | .ok (i, s') => exec i s'

/-- `s` with the Word `w` (its bits from `nbits` up 0) where the next fetch reads, and running, so that the next step
runs it.  At `pc = 0xFFFF` under `PC_OVERFLOW = fault` no Word can be run (R27): the fetch faults. -/
def State.withFetchWord (s : State) (nbits w : Nat) : State := placeFetchWord s (BitVec.ofNat 16 (w % 2 ^ nbits))

end Sys2Proof.Machine
end

