-- ==== Sys2Proof/Safety.lean ====
section
/-! DEFINITION. The terms in which claims about the machine are made: runs, the invariant, what an instruction reads and
writes according to the spec's tables, and the layout of a Word as arithmetic. -/

namespace Sys2Proof.Machine

/-! ### Runs -/

/-- `k` ticks of the machine (R120). -/
def run (k : Nat) (s : State) : Host.Outcome State Fault Refusal := Sys2Proof.core.run k s

/-- A safe run: no number of ticks ends in an error (R130). -/
def SafeFrom (s : State) : Prop := ∀ k, ∃ t, run k s = .next t

/-- `k` completed ticks from `s` to `t` in which every state, `s` and `t` included, satisfies `P`. -/
def RunWithin (P : State → Prop) : Nat → State → State → Prop
  | 0, s, t => P s ∧ s = t
  | k + 1, s, t => P s ∧ ∃ s', step s = .next s' ∧ RunWithin P k s' t

/-- The instruction a running core executes in its next tick, and the state its rule runs in (R122, R123). -/
def Executes (s : State) (i : Instr) (s' : State) : Prop := s.halted = false ∧ fetchDecode s = .ok (i, s')

/-- Apply `f` to the next state of an outcome; a fault or a refusal stays what it is. -/
def mapNext (f : State → State) : Host.Outcome State Fault Refusal → Host.Outcome State Fault Refusal
  | .next s => .next (f s)
  | .fault r => .fault r
  | .refused r => .refused r

/-! ### The invariant -/

/-- What holds at construction from admitted parameters and is kept by every tick. -/
structure MachineInv (s : State) : Prop where
  /-- the parameters are admitted (R6) -/
  config : s.cfg.wf = true
  /-- instruction memory is in canonical form, every listed address in the space (R50) -/
  imem : s.imem.wf = true
  /-- data memory is in canonical form, every listed address in the space (R50) -/
  dmem : s.dmem.wf = true
  /-- `dec` is the function of `ir` and `OPMAP` that R32 says it is -/
  latch : s.dec = latchOf s.cfg.opmap s.ir
  /-- `sp` names a slot of the stack region or the Word below it (R193, R194) -/
  stack : s.cfg.stackLo.toNat ≤ s.sp.toNat + 1 ∧ s.sp.toNat ≤ s.cfg.stackHi.toNat
  /-- "`N` and `Z` are never both 1" (R143) -/
  flags : ¬(s.flags.n = true ∧ s.flags.z = true)

/-! ### The tables of R24 and R126 -/

/-- The general registers an instruction reads (R24). -/
def regsRead : Instr → List Reg
  | .loadi _ _ => []
  | .lui rd _ => [rd]
  | .load _ f2 _ => [f2]
  | .store f1 f2 _ => [f1, f2]
  | .addi _ ra _ => [ra]
  | .add _ ra rb => [ra, rb]
  | .sub _ ra rb => [ra, rb]
  | .and _ ra rb => [ra, rb]
  | .or _ ra rb => [ra, rb]
  | .shft _ ra rb => [ra, rb]
  | .beq _ _ => []
  | .bne _ _ => []
  | .b _ => []
  | .call _ => []
  | .ret => []
  | .halt => []

/-- The general register an instruction writes, if any (R24). -/
def regWritten : Instr → Option Reg
  | .loadi rd _ => some rd
  | .lui rd _ => some rd
  | .load f1 _ _ => some f1
  | .store _ _ _ => none
  | .addi rd _ _ => some rd
  | .add rd _ _ => some rd
  | .sub rd _ _ => some rd
  | .and rd _ _ => some rd
  | .or rd _ _ => some rd
  | .shft rd _ _ => some rd
  | .beq _ _ => none
  | .bne _ _ => none
  | .b _ => none
  | .call _ => none
  | .ret => none
  | .halt => none

/-- The six mnemonics that dispatch to the ALU, the only ones that write flags (R29, R125). -/
def usesAlu : Mnemonic → Bool
  | .ADDI => true
  | .ADD => true
  | .SUB => true
  | .AND => true
  | .OR => true
  | .SHFT => true
  | .LOADI => false
  | .LUI => false
  | .LOAD => false
  | .STORE => false
  | .BEQ => false
  | .BNE => false
  | .B => false
  | .CALL => false
  | .RET => false
  | .HALT => false

/-- The address of data memory an instruction stores to, if it stores: STORE's effective address, computed as its meaning
computes it, and for CALL the slot `sp` names (R58, R126). -/
def addressStored (i : Instr) (s : State) : Option Int :=
  match i with
  | .loadi _ _ => none
  | .lui _ _ => none
  | .load _ _ _ => none
  | .store f1 f2 addr6 => some (storeAddress f1 f2 addr6 s)
  | .addi _ _ _ => none
  | .add _ _ _ => none
  | .sub _ _ _ => none
  | .and _ _ _ => none
  | .or _ _ _ => none
  | .shft _ _ _ => none
  | .beq _ _ => none
  | .bne _ _ => none
  | .b _ => none
  | .call _ => some s.sp.toNat
  | .ret => none
  | .halt => none

/-! ### What an instruction leaves alone -/

/-- Every general register but `rd` is unchanged. -/
def RegsKeptBut (rd : Option Reg) (s t : State) : Prop := ∀ k, some k ≠ rd → t.getReg k = s.getReg k

/-- Every Word of data memory but the one at `a` reads as before. -/
def MemKeptBut (a : Option Int) (s t : State) : Prop := ∀ k : Nat, some (k : Int) ≠ a → t.dmem.read k = s.dmem.read k

/-- What no instruction rule writes: `ir` and `dec` (fetch and decode wrote them), instruction memory, the parameters. -/
def FixedKept (s t : State) : Prop := t.ir = s.ir ∧ t.dec = s.dec ∧ t.imem = s.imem ∧ t.cfg = s.cfg

/-- The frame of an instruction whose only effects are on one register and the flags. -/
def OnlyRegAndFlags (rd : Reg) (s t : State) : Prop :=
  RegsKeptBut (some rd) s t ∧ t.pc = s.pc ∧ t.sp = s.sp ∧ t.halted = s.halted ∧ MemKeptBut none s t ∧ FixedKept s t

/-- The frame of an instruction whose only effect is on one register. -/
def OnlyReg (rd : Reg) (s t : State) : Prop := OnlyRegAndFlags rd s t ∧ t.flags = s.flags

/-! ### The table of R207 -/

/-- `f` is the fault of a LOAD or a STORE with effective address `ea`: out of range, or in the stack region (R202, R203). -/
def OrdinaryAddressFault (s : State) (ea : Int) (f : Fault) : Prop :=
  (f = .operandRangeError ea s.instrAddress ∧ (ea < 0 ∨ 0xFFFF < ea)) ∨
  (f = .protectedRegionError ea s.instrAddress ∧ (s.cfg.stackLo.toNat : Int) ≤ ea ∧ ea ≤ s.cfg.stackHi.toNat)

/-- `f` is the fault of a stack access to `a`, which lies outside the stack region (R59, R60, R202). -/
def StackAddressFault (s : State) (a : Int) (f : Fault) : Prop :=
  f = .operandRangeError a s.instrAddress ∧ (a < s.cfg.stackLo.toNat ∨ (s.cfg.stackHi.toNat : Int) < a)

/-- `f` is the fault of a relative transfer whose target `seq + sext_8(offset8)` is out of range, which only
`PC_OVERFLOW = fault` makes one (R190, R202, D10). -/
def TargetFault (s : State) (offset8 : BitVec 8) (f : Fault) : Prop :=
  f = .operandRangeError ((s.pc.toNat : Int) + sext offset8) s.instrAddress ∧
    ((s.pc.toNat : Int) + sext offset8 < 0 ∨ 0xFFFF < (s.pc.toNat : Int) + sext offset8) ∧ s.cfg.pcOverflow = .fault

/-- The faults an instruction's own rule can raise in a state, constructor by constructor (R207), with the checks of CALL in
the order of R204. -/
def ListedFault (i : Instr) (s : State) (f : Fault) : Prop :=
  match i with
  | .loadi _ _ => False
  | .lui _ _ => False
  | .load _ f2 addr6 => OrdinaryAddressFault s (effectiveAddress (s.getReg f2) addr6) f
  | .store f1 f2 addr6 => OrdinaryAddressFault s (storeAddress f1 f2 addr6 s) f
  | .addi _ _ _ => False
  | .add _ _ _ => False
  | .sub _ _ _ => False
  | .and _ _ _ => False
  | .or _ _ _ => False
  | .shft _ _ _ => False
  | .beq _ offset8 => s.flags.z = true ∧ TargetFault s offset8 f
  | .bne _ offset8 => s.flags.z = false ∧ TargetFault s offset8 f
  | .b offset8 => TargetFault s offset8 f
  | .call offset8 => StackAddressFault s s.sp.toNat f ∨ (inStackRegion s.cfg s.sp.toNat = true ∧ TargetFault s offset8 f)
  | .ret => StackAddressFault s (popAddress s) f
  | .halt => False

/-- The faults of a tick before its instruction's rule: the fetch at the top of instruction memory, else a Word whose zero
field is not 0 (R122, R123, R204). -/
def FetchDecodeFault (s : State) (f : Fault) : Prop :=
  (s.pc = 0xFFFF ∧ s.cfg.pcOverflow = .fault ∧ f = .operandRangeError 0x10000 0xFFFF) ∨
  ((s.pc ≠ 0xFFFF ∨ s.cfg.pcOverflow = .wrap) ∧
    decode s.cfg.opmap (imemRead s.imem s.pc) = .error (.decodeError (imemRead s.imem s.pc)) ∧
    f = .decodeError (imemRead s.imem s.pc) s.pc)

/-! ### The operations of the ALU, in integers -/

/-- N and Z from the result (R143). -/
def ResultFlags (r : Word) (g : Flags) : Prop := (g.n = true ↔ 32768 ≤ r.toNat) ∧ (g.z = true ↔ r.toNat = 0)

/-- "Operands of equal sign, result of differing sign" (R144). -/
def SignRule (a b r : Word) : Prop := (32768 ≤ a.toNat ↔ 32768 ≤ b.toNat) ∧ ¬(32768 ≤ r.toNat ↔ 32768 ≤ a.toNat)

/-- R144 and R143. -/
def AddSpec (a b r : Word) (g : Flags) : Prop :=
  r.toNat = (a.toNat + b.toNat) % 65536 ∧ ResultFlags r g ∧ (g.c = true ↔ a.toNat + b.toNat > 0xFFFF) ∧
    (g.v = true ↔ SignRule a b r)

/-- R145 and R143: the overflow test is on `a` and the negated operand, as a Word. -/
def SubSpec (a b r : Word) (g : Flags) : Prop :=
  (r.toNat : Int) = ((a.toNat : Int) - b.toNat) % 65536 ∧ ResultFlags r g ∧ (g.c = true ↔ a.toNat ≥ b.toNat) ∧
    (g.v = true ↔ SignRule a (BitVec.ofNat 16 (65536 - b.toNat)) r)

/-- R146 and R143. -/
def AndSpec (a b r : Word) (g : Flags) : Prop :=
  (∀ k, r.getLsbD k = (a.getLsbD k && b.getLsbD k)) ∧ ResultFlags r g ∧ g.c = false ∧ g.v = false

/-- R147 and R143. -/
def OrSpec (a b r : Word) (g : Flags) : Prop :=
  (∀ k, r.getLsbD k = (a.getLsbD k || b.getLsbD k)) ∧ ResultFlags r g ∧ g.c = false ∧ g.v = false

/-- R148, R149 and R143: bit 15 of `b` is the direction, bits 3:0 the amount, and `c0` the carry from before. -/
def ShftSpec (a b : Word) (c0 : Bool) (r : Word) (g : Flags) : Prop :=
  let n := b.toNat % 16
  (n = 0 → r = a ∧ g.c = c0) ∧
  (n ≠ 0 → b.toNat < 32768 → r.toNat = a.toNat * 2 ^ n % 65536 ∧ g.c = (a.toNat * 2 ^ n).testBit 16) ∧
  (n ≠ 0 → 32768 ≤ b.toNat → r.toNat = a.toNat / 2 ^ n ∧ g.c = a.toNat.testBit (n - 1)) ∧
  ResultFlags r g ∧ g.v = false

/-! ### A Word as arithmetic -/

/-- Every Word with the opcode of `m` (bits 15:12) is read as `fields` says when its low `zeroBits` bits are 0, and
raises `DecodeError` otherwise. -/
def DecodesAs (m : Mnemonic) (zeroBits : Nat) (fields : Nat → Instr) : Prop :=
  ∀ (om : Opmap) (w : Word), om.mnemonicOf (BitVec.ofNat 4 (w.toNat / 4096)) = m →
    decode om w = if w.toNat % 2 ^ zeroBits = 0 then .ok (fields w.toNat) else .error (.decodeError w)

/-- A register field whose lowest bit is bit `lo` of a Word. -/
def regAt (lo w : Nat) : Reg := Fin.ofNat 8 (w / 2 ^ lo)

/-- A field of `n` bits whose lowest bit is bit `lo` of a Word. -/
def bitsAt (n lo w : Nat) : BitVec n := BitVec.ofNat n (w / 2 ^ lo)

/-- The bits R94 names for each mnemonic are not all 0. -/
def zeroBitsSet (m : Mnemonic) (w : Word) : Bool :=
  match m with
  | .LOADI => w.getLsbD 0
  | .LUI => w.getLsbD 0
  | .BEQ => w.getLsbD 0
  | .BNE => w.getLsbD 0
  | .ADD => w.getLsbD 2 || w.getLsbD 1 || w.getLsbD 0
  | .SUB => w.getLsbD 2 || w.getLsbD 1 || w.getLsbD 0
  | .AND => w.getLsbD 2 || w.getLsbD 1 || w.getLsbD 0
  | .OR => w.getLsbD 2 || w.getLsbD 1 || w.getLsbD 0
  | .SHFT => w.getLsbD 2 || w.getLsbD 1 || w.getLsbD 0
  | .B => w.getLsbD 3 || w.getLsbD 2 || w.getLsbD 1 || w.getLsbD 0
  | .CALL => w.getLsbD 3 || w.getLsbD 2 || w.getLsbD 1 || w.getLsbD 0
  | .RET => (List.range 12).any fun k => w.getLsbD k
  | .HALT => (List.range 12).any fun k => w.getLsbD k
  | .LOAD => false
  | .STORE => false
  | .ADDI => false

/-- The Word last assigned to an address by `DMEM_INIT`; 0x0000 if none was (R36). -/
def lastAssigned (l : List (Word × Word)) (a : Nat) : Word :=
  match l.reverse.find? (fun p => decide (p.1.toNat = a)) with
  | some p => p.2
  | none => 0

end Sys2Proof.Machine
end

