-- ==== Sys2Proof/Certificates/Slice0/Obligations.lean ====
section
/-! DEFINITION. The statements for the provers.  In a statement about `exec`, `s` is the state the fetch and decode steps
leave, so `s.pc` is `seq`, the address after the instruction (R122), and `s.pc - 1` is the address of the instruction. -/

open Sys2Proof Sys2Proof.Machine

/-! ### Construction and the tick -/

/-- The machine at construction with every parameter at its default (R36, R230).  `pc`, the running state and the empty
memories are the source's.  The model's choices: the register, flag and `ir` values (DESIGN CHOICE, notes/assumptions/3.md,
4.md, 5.md), the stack bounds (7.md), and that `dec` is the decode of `ir`, where R36 also admits an absent one (26.md). -/
def Obligations.ResetIsTheDefaultConstruction : Prop :=
  construct defaultConfig defaultLaunch = .ok State.reset ∧
  State.reset.pc = 0x0000 ∧ State.reset.sp = State.reset.cfg.stackHi ∧ State.reset.halted = false ∧
  (∀ a, State.reset.imem.read a = 0) ∧ (∀ a, State.reset.dmem.read a = 0) ∧
  (∀ r, State.reset.getReg r = 0) ∧ State.reset.flags.toNat = 0 ∧ State.reset.ir = 0 ∧
  State.reset.dec = latchOf State.reset.cfg.opmap State.reset.ir ∧
  State.reset.cfg.stackLo = 0xFF00 ∧ State.reset.cfg.stackHi = 0xFFFF ∧ State.reset.cfg.wf = true

/-- Construction from any parameters: every piece of state as the table of R36 says, `PROGRAM` in instruction memory from
address 0 (R232), 0x0000 at every other address, data memory as `DMEM_INIT` says.  The model's choices: that `dec` is the
decode of `ir`, where R36 also admits an absent one (DESIGN CHOICE, notes/assumptions/26.md), and that `DMEM_INIT` is a list
of assignments of which the last one to an address counts (DESIGN CHOICE, notes/assumptions/31.md). -/
def Obligations.ConstructionPlacesWhatTheLaunchGives : Prop :=
  ∀ (c : Config) (l : Launch), l.wf = true → ∃ s, construct c l = .ok s ∧
    s.pc = 0x0000 ∧ s.sp = c.stackHi ∧ s.halted = false ∧ (∀ r : Reg, s.getReg r = l.regInit[r]) ∧
    s.flags = l.flagsInit ∧ s.ir = l.irInit ∧ s.dec = latchOf c.opmap l.irInit ∧ s.cfg = c ∧
    (∀ (k : Nat) (h : k < l.program.length), s.imem.read k = l.program[k]) ∧
    (∀ k, l.program.length ≤ k → s.imem.read k = 0) ∧
    (∀ k, s.dmem.read k = lastAssigned l.dmemInit k)

/-- The invariant holds at reset.  The register, flag and `ir` values at reset, the stack bounds and the latch (the decode of
`ir`, where R36 also admits an absent one) are the model's choices: notes/assumptions/3.md, 4.md, 5.md, 7.md and 26.md. -/
def Obligations.ResetMeetsTheInvariant : Prop := MachineInv State.reset

/-- The invariant holds of every machine constructed from admitted parameters whose `FLAGS_INIT` does not have `N` and
`Z` both set.  The spec admits such a `FLAGS_INIT`; it is left out here, since the invariant's clause on `N` and `Z` is what
an ALU operation leaves (R143) and fails of that construction.  The clause on the latch at construction is the model's
choice: R36 also admits an absent `dec` (DESIGN CHOICE, notes/assumptions/26.md). -/
def Obligations.ConstructionMeetsTheInvariant : Prop :=
  ∀ (c : Config) (l : Launch) (s : State), c.wf = true → ¬(l.flagsInit.n = true ∧ l.flagsInit.z = true) →
    construct c l = .ok s → MachineInv s

/-- Every tick keeps the invariant.  Its clause on `sp` rests on the spec's decisions D6 and D8 (DESIGN CHOICE,
notes/assumptions/19.md, 13.md). -/
def Obligations.EveryStepKeepsTheInvariant : Prop := ∀ s t : State, MachineInv s → step s = .next t → MachineInv t

/-- R121: a tick of a halted core changes nothing and its result is `false`, and so does every later tick. -/
def Obligations.HaltedCoreIgnoresTicks : Prop :=
  ∀ (s : State) (k : Nat), s.halted = true → step s = .next s ∧ run k s = .next s ∧ s.tickResult = false

/-- R33: running at construction; only HALT halts, and HALT does; nothing clears the halted state. -/
def Obligations.OnlyHaltStopsTheCore : Prop :=
  (∀ c l s, construct c l = .ok s → s.halted = false) ∧
  (∀ s t, step s = .next t →
    (s.halted = true → t.halted = true) ∧
    (s.halted = false → (t.halted = true ↔ ∃ s', Executes s .halt s')))

/-- The step of a running core on a Word that decodes: `ir` and the latch are written, the program counter is the next
address, and the instruction's meaning runs (R122 to R124).  The second alternative of the premise on `pc` is the wrap
of `PC_OVERFLOW`, a switch of the spec (D10, notes/assumptions/12.md). -/
def Obligations.StepRunsTheFetchedInstruction : Prop :=
  ∀ (s : State) (i : Instr), s.halted = false → s.pc ≠ 0xFFFF ∨ s.cfg.pcOverflow = .wrap →
    decode s.cfg.opmap (imemRead s.imem s.pc) = .ok i →
    step s = exec i { s with
      ir := imemRead s.imem s.pc
      pc := s.pc + 1
      dec := some (decodedRecord (imemRead s.imem s.pc) i) }

/-- The errors of the steps before execute, in their order (R122, R123, R204; the first is the spec's decision D10): at the
top of instruction memory the fetch faults whatever Word stands there, and elsewhere a Word that does not decode
raises `DecodeError` with the Word and its address. -/
def Obligations.FetchAndDecodeErrorsInOrder : Prop :=
  ∀ s : State, s.halted = false →
    (s.pc = 0xFFFF → s.cfg.pcOverflow = .fault → step s = .fault (.operandRangeError 0x10000 0xFFFF)) ∧
    (s.pc ≠ 0xFFFF ∨ s.cfg.pcOverflow = .wrap → (∀ i, decode s.cfg.opmap (imemRead s.imem s.pc) ≠ .ok i) →
      step s = .fault (.decodeError (imemRead s.imem s.pc) s.pc))

/-- The Word that `withFetchWord` places is the one the next step runs.  `withFetchWord`, a write at `pc` that also makes the
core running, is no move of the spec: it is the model's choice that stands for the load of a program (DESIGN CHOICE,
notes/assumptions/24.md).  `pc = 0xFFFF` under `PC_OVERFLOW = wrap` is left to StepRunsTheFetchedInstruction. -/
def Obligations.PlacedWordIsFetchedNext : Prop :=
  ∀ (s : State) (n : Nat) (i : Instr), s.imem.wf = true → s.pc ≠ 0xFFFF →
    decode s.cfg.opmap (BitVec.ofNat 16 n) = .ok i →
    step (s.withFetchWord 16 n) = exec i { s with
      imem := (s.withFetchWord 16 n).imem
      halted := false
      ir := BitVec.ofNat 16 n
      pc := s.pc + 1
      dec := some (decodedRecord (BitVec.ofNat 16 n) i) }

/-- R67: no run changes instruction memory, so a fetch always returns the Word that loading put there; nor does a run
change a parameter (R21). -/
def Obligations.NoRunChangesProgramOrParameters : Prop :=
  ∀ (k : Nat) (s t : State), run k s = .next t →
    (∀ a, imemRead t.imem a = imemRead s.imem a) ∧ t.imem = s.imem ∧ t.cfg = s.cfg

/-- R51: a write to instruction memory is rejected while the core runs, and while loading it puts the Word at its address
and nothing anywhere else.  That the rejection comes before any range check, so that an address outside [0, 0xFFFF] gives
`ProtectedRegionError` too, and that it records that address, is the model's choice (DESIGN CHOICE,
notes/assumptions/29.md). -/
def Obligations.InstructionMemoryIsWritableOnlyWhileLoading : Prop :=
  ∀ (m : Memory) (a : Int) (v : Word), m.wf = true →
    imemWrite .running m a v = .error (.protectedRegionError a) ∧
    (0 ≤ a → a ≤ 0xFFFF → ∃ m', imemWrite .loading m a v = .ok m' ∧ m'.wf = true ∧ m'.read a.toNat = v ∧
      ∀ k, k ≠ a.toNat → m'.read k = m.read k)

/-! ### Encoding -/

/-- R94: a Word is illegal exactly when the zero field of its format is not 0; an illegal Word raises `DecodeError` and a
tick that fetches one stops the machine with it; every other Word decodes. -/
def Obligations.IllegalWordsRaiseDecodeError : Prop :=
  (∀ (om : Opmap) (w : Word),
    (zeroBitsSet (om.mnemonicOf (BitVec.ofNat 4 (w.toNat / 4096))) w = true → decode om w = .error (.decodeError w)) ∧
    (zeroBitsSet (om.mnemonicOf (BitVec.ofNat 4 (w.toNat / 4096))) w = false →
      ∃ i, decode om w = .ok i ∧ i.mnemonic = om.mnemonicOf (BitVec.ofNat 4 (w.toNat / 4096)))) ∧
  (∀ (s s' : State), s.halted = false → fetch s = .ok s' →
    zeroBitsSet (s.cfg.opmap.mnemonicOf (BitVec.ofNat 4 (s'.ir.toNat / 4096))) s'.ir = true →
    step s = .fault (.decodeError s'.ir s.pc))

/-- R97: under every admitted `OPMAP`, 23554 of the 65536 Words are legal. -/
def Obligations.LegalWordsNumber23554 : Prop :=
  ∀ om : Opmap, Opmap.wf om = true →
    ((List.range 65536).filter fun n => (decode om (BitVec.ofNat 16 n)).isOk).length = 23554

/-- Words written out from R103 under the default `OPMAP` (DESIGN CHOICE of the spec, D1), one for each row, decode to the
instruction they stand for. -/
def Obligations.TableWordsDecode : Prop :=
  decode defaultOpmap 0b0000011101010110#16 = .ok (.loadi 3 171) ∧
  decode defaultOpmap 0b0001011000100100#16 = .ok (.lui 3 18) ∧
  decode defaultOpmap 0b0010010001111111#16 = .ok (.load 2 1 63) ∧
  decode defaultOpmap 0b0011010001000101#16 = .ok (.store 2 1 5) ∧
  decode defaultOpmap 0b0100001001111111#16 = .ok (.addi 1 1 63) ∧
  decode defaultOpmap 0b0101011001010000#16 = .ok (.add 3 1 2) ∧
  decode defaultOpmap 0b0110011001010000#16 = .ok (.sub 3 1 2) ∧
  decode defaultOpmap 0b0111011001010000#16 = .ok (.and 3 1 2) ∧
  decode defaultOpmap 0b1000011001010000#16 = .ok (.or 3 1 2) ∧
  decode defaultOpmap 0b1001011001010000#16 = .ok (.shft 3 1 2) ∧
  decode defaultOpmap 0b1010101111111100#16 = .ok (.beq 5 254) ∧
  decode defaultOpmap 0b1011000111111100#16 = .ok (.bne 0 254) ∧
  decode defaultOpmap 0b1100011111110000#16 = .ok (.b 127) ∧
  decode defaultOpmap 0b1101000001010000#16 = .ok (.call 5) ∧
  decode defaultOpmap 0b1110000000000000#16 = .ok .ret ∧
  decode defaultOpmap 0b1111000000000000#16 = .ok .halt

/-- R99, both directions, for every instruction with every value of every field: decode inverts encode, and encode
inverts decode on every legal Word. -/
def Obligations.DecodeInvertsEncode : Prop :=
  ∀ om : Opmap, Opmap.wf om = true →
    (∀ i, decode om (encode om i) = .ok i) ∧ (∀ w i, decode om w = .ok i → encode om i = w)

/-- R99 on the assembler's operands: in-range operands are accepted, and the Word decodes to the mnemonic and, compared
after sign extension, to the operands. -/
def Obligations.InRangeOperandsSurviveEncoding : Prop :=
  ∀ (om : Opmap) (m : Mnemonic) (ops : List Int), Opmap.wf om = true → operandsInRange m.format ops = true →
    ∃ w i, assemble om m ops = .ok w ∧ decode om w = .ok i ∧ i.mnemonic = m ∧ i.operands = ops

/-- R98: the encode function, format by format: a register index outside [0, 7] is a register-range error; every immediate
and offset is reduced to its field width, whatever its value; the fields are packed under the opcode `OPMAP(m)` with
the zero field 0. -/
def Obligations.EncoderMasksAndPacksFields : Prop :=
  ∀ (om : Opmap) (p q r v : Int),
    (∀ m : Mnemonic, m.format = .I8 ∨ m.format = .BC →
      ((0 ≤ p ∧ p ≤ 7) → assemble om m [p, v] = .ok (wordOfInt ((om.opcodeOf m).toNat * 4096 + p * 512 + v % 256 * 2))) ∧
      (¬(0 ≤ p ∧ p ≤ 7) → assemble om m [p, v] = .error (.raised (.operandRangeError p)))) ∧
    (∀ m : Mnemonic, m.format = .I6 ∨ m.format = .M →
      ((0 ≤ p ∧ p ≤ 7) ∧ (0 ≤ q ∧ q ≤ 7) →
        assemble om m [p, q, v] = .ok (wordOfInt ((om.opcodeOf m).toNat * 4096 + p * 512 + q * 64 + v % 64))) ∧
      (¬((0 ≤ p ∧ p ≤ 7) ∧ (0 ≤ q ∧ q ≤ 7)) →
        ∃ k, (k = p ∨ k = q) ∧ ¬(0 ≤ k ∧ k ≤ 7) ∧ assemble om m [p, q, v] = .error (.raised (.operandRangeError k)))) ∧
    (∀ m : Mnemonic, m.format = .R →
      ((0 ≤ p ∧ p ≤ 7) ∧ (0 ≤ q ∧ q ≤ 7) ∧ (0 ≤ r ∧ r ≤ 7) →
        assemble om m [p, q, r] = .ok (wordOfInt ((om.opcodeOf m).toNat * 4096 + p * 512 + q * 64 + r * 8))) ∧
      (¬((0 ≤ p ∧ p ≤ 7) ∧ (0 ≤ q ∧ q ≤ 7) ∧ (0 ≤ r ∧ r ≤ 7)) →
        ∃ k, (k = p ∨ k = q ∨ k = r) ∧ ¬(0 ≤ k ∧ k ≤ 7) ∧
          assemble om m [p, q, r] = .error (.raised (.operandRangeError k)))) ∧
    (∀ m : Mnemonic, m.format = .BU →
      assemble om m [v] = .ok (wordOfInt ((om.opcodeOf m).toNat * 4096 + v % 256 * 16))) ∧
    (∀ m : Mnemonic, m.format = .O → assemble om m [] = .ok (wordOfInt ((om.opcodeOf m).toNat * 4096)))

/-- R100: the offset encoded for an instruction at `a` and a label at `t` takes a transfer from `a` to `t` when `t` is one
of `a - 127` to `a + 128`, and, where the program counter does not wrap, to no such place otherwise. -/
def Obligations.LabelOffsetsReachTheirLabels : Prop :=
  ∀ (c : Config) (a t : Word), a ≠ 0xFFFF →
    ((labelOffset a t).toNat : Int) = ((t.toNat : Int) - a.toNat - 1) % 256 ∧
    ((a.toNat : Int) - 127 ≤ t.toNat → (t.toNat : Int) ≤ a.toNat + 128 →
      branchTarget c (a + 1) (labelOffset a t) = .ok t) ∧
    (c.pcOverflow = .fault → ¬((a.toNat : Int) - 127 ≤ t.toNat ∧ (t.toNat : Int) ≤ a.toNat + 128) →
      branchTarget c (a + 1) (labelOffset a t) ≠ .ok t)

/-! ### The ALU -/

/-- R143: after every ALU operation `N` is bit 15 of the result and `Z` says that the result is 0; they are never both 1. -/
def Obligations.AluSetsNAndZFromTheResult : Prop :=
  ∀ (cm : AluCtrlMap) (ctrl : BitVec 3) (a b : Int) (f g : Flags) (r : Word), alu cm ctrl a b f = .ok (r, g) →
    (g.n = r.getLsbD 15) ∧ (g.z = true ↔ r = 0) ∧ ¬(g.n = true ∧ g.z = true)

/-- R144: ADD, and that `V` is true signed overflow of the sum. -/
def Obligations.AluAddsWithCarryAndOverflow : Prop :=
  ∀ (cm : AluCtrlMap) (a b : Word) (f : Flags), AluCtrlMap.wf cm = true →
    ∃ r g, alu cm (aluCode cm .add) a.toNat b.toNat f = .ok (r, g) ∧ AddSpec a b r g ∧
      (g.v = true ↔ ¬(-32768 ≤ a.toInt + b.toInt ∧ a.toInt + b.toInt ≤ 32767))

/-- R145: SUB; `V` is true signed overflow of the difference for every `b` but 0x8000, and the opposite of it there. -/
def Obligations.AluSubtractsByNegatedAdd : Prop :=
  ∀ (cm : AluCtrlMap) (a b : Word) (f : Flags), AluCtrlMap.wf cm = true →
    ∃ r g, alu cm (aluCode cm .sub) a.toNat b.toNat f = .ok (r, g) ∧ SubSpec a b r g ∧
      (b ≠ 0x8000 → (g.v = true ↔ ¬(-32768 ≤ a.toInt - b.toInt ∧ a.toInt - b.toInt ≤ 32767))) ∧
      (b = 0x8000 → g.v = a.getLsbD 15 ∧ (g.v = true ↔ (-32768 ≤ a.toInt - b.toInt ∧ a.toInt - b.toInt ≤ 32767)))

/-- R146 and R147: AND and OR are bitwise and leave `C` and `V` 0 whatever they were. -/
def Obligations.AluAndOrClearCarryAndOverflow : Prop :=
  ∀ (cm : AluCtrlMap) (a b : Word) (f : Flags), AluCtrlMap.wf cm = true →
    (∃ r g, alu cm (aluCode cm .and) a.toNat b.toNat f = .ok (r, g) ∧ AndSpec a b r g) ∧
    (∃ r g, alu cm (aluCode cm .or) a.toNat b.toNat f = .ok (r, g) ∧ OrSpec a b r g)

/-- R148 and R149: SHFT, with the layout of the control Word (D12), the logical right shift (D13) and the cleared `V`
(D14) as the spec decides them. -/
def Obligations.AluShiftsAndKeepsTheLastBitOut : Prop :=
  ∀ (cm : AluCtrlMap) (a b : Word) (f : Flags), AluCtrlMap.wf cm = true →
    ∃ r g, alu cm (aluCode cm .shft) a.toNat b.toNat f = .ok (r, g) ∧ ShftSpec a b f.c r g

/-- R151 and R205: codes 5, 6 and 7 raise `AluControlError`, whatever the operands; codes 0 to 4 never fail on an operand,
operands being masked first; and no instruction raises it.  That the error's code is 4 is the spec's decision D25 (DESIGN
CHOICE, notes/assumptions/23.md). -/
def Obligations.AluControlErrorOnlyFromIllegalCodes : Prop :=
  (∀ (cm : AluCtrlMap) (ctrl : BitVec 3) (a b : Int) (f : Flags),
    (5 ≤ ctrl.toNat → alu cm ctrl a b f = .error (.aluControlError ctrl)) ∧
    (ctrl.toNat < 5 → ∃ p, alu cm ctrl a b f = .ok p) ∧
    alu cm ctrl a b f = alu cm ctrl (a % 65536) (b % 65536) f) ∧
  (∀ ctrl, (Fault.aluControlError ctrl).code = 4) ∧
  (∀ (s : State) (ctrl : BitVec 3), s.cfg.wf = true →
    (∀ i, exec i s ≠ .fault (.aluControlError ctrl)) ∧ step s ≠ .fault (.aluControlError ctrl))

/-! ### Data movement -/

/-- R170: LOADI. -/
def Obligations.LoadiLoadsTheZeroExtendedImmediate : Prop :=
  (∀ (s : State) (rd : Reg) (imm8 : BitVec 8), ∃ t, exec (.loadi rd imm8) s = .next t ∧
    (t.getReg rd).toNat = imm8.toNat ∧ OnlyReg rd s t) ∧
  DecodesAs .LOADI 1 fun w => .loadi (regAt 9 w) (bitsAt 8 1 w)

/-- R171: LUI. -/
def Obligations.LuiReplacesTheUpperByte : Prop :=
  (∀ (s : State) (rd : Reg) (imm8 : BitVec 8), ∃ t, exec (.lui rd imm8) s = .next t ∧
    (t.getReg rd).toNat = imm8.toNat * 256 + (s.getReg rd).toNat % 256 ∧ OnlyReg rd s t) ∧
  DecodesAs .LUI 1 fun w => .lui (regAt 9 w) (bitsAt 8 1 w)

/-- R172, R173 and R56: LOAD from an address in range and outside the stack region. -/
def Obligations.LoadReadsOrdinaryDataMemory : Prop :=
  ∀ (s : State) (f1 f2 : Reg) (addr6 : BitVec 6) (ea : Int), ea = (s.getReg f2).toNat + addr6.toInt →
    0 ≤ ea → ea ≤ 0xFFFF → ¬((s.cfg.stackLo.toNat : Int) ≤ ea ∧ ea ≤ s.cfg.stackHi.toNat) →
    ∃ t, exec (.load f1 f2 addr6) s = .next t ∧ t.getReg f1 = s.dmem.read ea.toNat ∧ OnlyReg f1 s t

/-- R172, R174 and R57: STORE to an address in range and outside the stack region.  Which field is the base is
`STORE_BASE_FIELD`, the second by the spec's decision D3. -/
def Obligations.StoreWritesOrdinaryDataMemory : Prop :=
  ∀ (s : State) (f1 f2 : Reg) (addr6 : BitVec 6) (ea : Int), ea = storeAddress f1 f2 addr6 s → s.dmem.wf = true →
    0 ≤ ea → ea ≤ 0xFFFF → ¬((s.cfg.stackLo.toNat : Int) ≤ ea ∧ ea ≤ s.cfg.stackHi.toNat) →
    ∃ t, exec (.store f1 f2 addr6) s = .next t ∧
      (s.cfg.storeBase = .f2 → ea = (s.getReg f2).toNat + addr6.toInt ∧ t.dmem.read ea.toNat = s.getReg f1) ∧
      (s.cfg.storeBase = .f1 → ea = (s.getReg f1).toNat + addr6.toInt ∧ t.dmem.read ea.toNat = s.getReg f2) ∧
      MemKeptBut (some ea) s t ∧ t.dmem.wf = true ∧
      RegsKeptBut none s t ∧ t.pc = s.pc ∧ t.sp = s.sp ∧ t.flags = s.flags ∧ t.halted = s.halted ∧ FixedKept s t

/-- R56, R57, R202 and R203: the two errors of LOAD and STORE, with the effective address and the address of the
instruction. -/
def Obligations.LoadAndStoreAddressErrors : Prop :=
  ∀ (s : State) (f1 f2 : Reg) (addr6 : BitVec 6) (i : Instr) (ea : Int),
    (i = .load f1 f2 addr6 ∧ ea = (s.getReg f2).toNat + addr6.toInt) ∨
      (i = .store f1 f2 addr6 ∧ ea = storeAddress f1 f2 addr6 s) →
    (ea < 0 ∨ 0xFFFF < ea → exec i s = .fault (.operandRangeError ea (s.pc - 1))) ∧
    ((s.cfg.stackLo.toNat : Int) ≤ ea → ea ≤ s.cfg.stackHi.toNat →
      exec i s = .fault (.protectedRegionError ea (s.pc - 1)))

/-- R57: the ordinary write path; the conditions of its two errors exclude each other. -/
def Obligations.OrdinaryWritePathChecksThenWrites : Prop :=
  ∀ (c : Config) (m : Memory) (a v : Int), m.wf = true →
    (a < 0 ∨ 0xFFFF < a → memWrite c m a (wordOfInt v) = .error (.operandRangeError a)) ∧
    ((c.stackLo.toNat : Int) ≤ a ∧ a ≤ c.stackHi.toNat →
      memWrite c m a (wordOfInt v) = .error (.protectedRegionError a)) ∧
    (0 ≤ a ∧ a ≤ 0xFFFF → ¬((c.stackLo.toNat : Int) ≤ a ∧ a ≤ c.stackHi.toNat) →
      ∃ m', memWrite c m a (wordOfInt v) = .ok m' ∧ ((m'.read a.toNat).toNat : Int) = v % 65536 ∧ m'.wf = true ∧
        ∀ k, k ≠ a.toNat → m'.read k = m.read k) ∧
    ¬((a < 0 ∨ 0xFFFF < a) ∧ (c.stackLo.toNat : Int) ≤ a ∧ a ≤ c.stackHi.toNat)

/-- R59 and R60 (the spec's decision D8): the stack path reaches the stack region and nothing else. -/
def Obligations.StackPathReachesOnlyTheStackRegion : Prop :=
  ∀ (c : Config) (m : Memory) (a : Int) (v : Word), m.wf = true →
    (¬((c.stackLo.toNat : Int) ≤ a ∧ a ≤ c.stackHi.toNat) →
      stackRead c m a = .error (.operandRangeError a) ∧ stackWrite c m a v = .error (.operandRangeError a)) ∧
    ((c.stackLo.toNat : Int) ≤ a ∧ a ≤ c.stackHi.toNat →
      stackRead c m a = .ok (m.read a.toNat) ∧
      ∃ m', stackWrite c m a v = .ok m' ∧ m'.read a.toNat = v ∧ m'.wf = true ∧
        ∀ k, k ≠ a.toNat → m'.read k = m.read k)

/-- Memories in canonical form that read alike at every address are equal data. -/
def Obligations.CanonicalMemoriesAreDeterminedByTheirReads : Prop :=
  ∀ m m' : Memory, m.wf = true → m'.wf = true → (∀ a, m.read a = m'.read a) → m = m'

/-- R64 (1): a LOAD returns what the most recent STORE to its address stored: a tick stores, any number of ticks follow
none of which stores to that address, and a LOAD from it completes with the stored Word. -/
def Obligations.LoadReturnsTheMostRecentStore : Prop :=
  ∀ (s s' t u u' : State) (f1 f2 g1 g2 : Reg) (d e : BitVec 6) (n : Nat), s.dmem.wf = true →
    Executes s (.store f1 f2 d) s' → step s = .next t →
    RunWithin (fun w => ∀ i w', Executes w i w' → addressStored i w' ≠ some (storeAddress f1 f2 d s')) n t u →
    Executes u (.load g1 g2 e) u' → effectiveAddress (u'.getReg g2) e = storeAddress f1 f2 d s' →
    ∃ v, step u = .next v ∧ v.getReg g1 = s'.getReg (storeRoles s'.cfg f1 f2).1

/-! ### The instructions that use the ALU -/

/-- R180: ADDI is the ADD of `x[ra]` and the sign-extended immediate as a Word. -/
def Obligations.AddiAddsTheSignExtendedImmediate : Prop :=
  (∀ (s : State) (rd ra : Reg) (imm6 : BitVec 6), s.cfg.wf = true →
    ∃ t, exec (.addi rd ra imm6) s = .next t ∧
      AddSpec (s.getReg ra) (wordOfInt imm6.toInt) (t.getReg rd) t.flags ∧ OnlyRegAndFlags rd s t) ∧
  DecodesAs .ADDI 0 fun w => .addi (regAt 9 w) (regAt 6 w) (bitsAt 6 0 w)

/-- R181 and R182: ADD and SUB. -/
def Obligations.AddAndSubWriteResultAndFlags : Prop :=
  (∀ (s : State) (rd ra rb : Reg), s.cfg.wf = true →
    (∃ t, exec (.add rd ra rb) s = .next t ∧
      AddSpec (s.getReg ra) (s.getReg rb) (t.getReg rd) t.flags ∧ OnlyRegAndFlags rd s t) ∧
    (∃ t, exec (.sub rd ra rb) s = .next t ∧
      SubSpec (s.getReg ra) (s.getReg rb) (t.getReg rd) t.flags ∧ OnlyRegAndFlags rd s t)) ∧
  (DecodesAs .ADD 3 fun w => .add (regAt 9 w) (regAt 6 w) (regAt 3 w)) ∧
  DecodesAs .SUB 3 fun w => .sub (regAt 9 w) (regAt 6 w) (regAt 3 w)

/-- R183 and R184: AND and OR. -/
def Obligations.AndAndOrWriteResultAndFlags : Prop :=
  (∀ (s : State) (rd ra rb : Reg), s.cfg.wf = true →
    (∃ t, exec (.and rd ra rb) s = .next t ∧
      AndSpec (s.getReg ra) (s.getReg rb) (t.getReg rd) t.flags ∧ OnlyRegAndFlags rd s t) ∧
    (∃ t, exec (.or rd ra rb) s = .next t ∧
      OrSpec (s.getReg ra) (s.getReg rb) (t.getReg rd) t.flags ∧ OnlyRegAndFlags rd s t)) ∧
  (DecodesAs .AND 3 fun w => .and (regAt 9 w) (regAt 6 w) (regAt 3 w)) ∧
  DecodesAs .OR 3 fun w => .or (regAt 9 w) (regAt 6 w) (regAt 3 w)

/-- R185: SHFT; what it computes rests on the spec's decisions D12, D13 and D14. -/
def Obligations.ShftWritesResultAndFlags : Prop :=
  (∀ (s : State) (rd ra rb : Reg), s.cfg.wf = true →
    ∃ t, exec (.shft rd ra rb) s = .next t ∧
      ShftSpec (s.getReg ra) (s.getReg rb) s.flags.c (t.getReg rd) t.flags ∧ OnlyRegAndFlags rd s t) ∧
  DecodesAs .SHFT 3 fun w => .shft (regAt 9 w) (regAt 6 w) (regAt 3 w)

/-! ### Control transfer -/

/-- R190, R191, R192 and R196: BEQ, BNE and B taken to a target in range, or to any target under the wrap of `PC_OVERFLOW`
(D10): only the program counter changes, and the `ra` field plays no part. -/
def Obligations.TakenBranchesGoToTheirTarget : Prop :=
  (∀ (s : State) (ra : Reg) (offset8 : BitVec 8) (i : Instr) (target : Int),
    (i = .beq ra offset8 ∧ s.flags.z = true) ∨ (i = .bne ra offset8 ∧ s.flags.z = false) ∨ i = .b offset8 →
    target = s.pc.toNat + offset8.toInt → (0 ≤ target ∧ target ≤ 0xFFFF) ∨ s.cfg.pcOverflow = .wrap →
    ∃ t, exec i s = .next t ∧ (t.pc.toNat : Int) = target % 65536 ∧ t = { s with pc := t.pc }) ∧
  (DecodesAs .BEQ 1 fun w => .beq (regAt 9 w) (bitsAt 8 1 w)) ∧
  (DecodesAs .BNE 1 fun w => .bne (regAt 9 w) (bitsAt 8 1 w)) ∧
  DecodesAs .B 4 fun w => .b (bitsAt 8 4 w)

/-- R191 and R192: a conditional branch that is not taken goes to `seq`, whatever its target would be.  That
`ra` plays no part is the spec's decision D4 (DESIGN CHOICE, notes/assumptions/10.md). -/
def Obligations.UntakenBranchesFallThrough : Prop :=
  ∀ (s : State) (ra : Reg) (offset8 : BitVec 8),
    (s.flags.z = false → exec (.beq ra offset8) s = .next s) ∧ (s.flags.z = true → exec (.bne ra offset8) s = .next s)

/-- R190 and R202 (the spec's decision D10): a taken branch whose target is out of range. -/
def Obligations.BranchTargetErrors : Prop :=
  ∀ (s : State) (ra : Reg) (offset8 : BitVec 8) (i : Instr) (target : Int),
    (i = .beq ra offset8 ∧ s.flags.z = true) ∨ (i = .bne ra offset8 ∧ s.flags.z = false) ∨ i = .b offset8 →
    target = s.pc.toNat + offset8.toInt → target < 0 ∨ 0xFFFF < target → s.cfg.pcOverflow = .fault →
    exec i s = .fault (.operandRangeError target (s.pc - 1))

/-- R193: which slot, the check on `sp` and the base and range of the target are the spec's decisions D6, D8, D5 and D10
(notes/assumptions/19.md, 13.md, 11.md, 12.md).  CALL stores `seq` at the old `sp`, moves `sp` one Word down and jumps. -/
def Obligations.CallPushesAndJumps : Prop :=
  (∀ (s : State) (offset8 : BitVec 8) (target : Int), s.cfg.wf = true → s.dmem.wf = true →
    s.cfg.stackLo.toNat ≤ s.sp.toNat → s.sp.toNat ≤ s.cfg.stackHi.toNat → target = s.pc.toNat + offset8.toInt →
    (0 ≤ target ∧ target ≤ 0xFFFF) ∨ s.cfg.pcOverflow = .wrap →
    ∃ t, exec (.call offset8) s = .next t ∧ t.dmem.read s.sp.toNat = s.pc ∧
      MemKeptBut (addressStored (.call offset8) s) s t ∧ t.dmem.wf = true ∧ t.sp.toNat = s.sp.toNat - 1 ∧
      (t.pc.toNat : Int) = target % 65536 ∧ RegsKeptBut none s t ∧ t.flags = s.flags ∧ t.halted = s.halted ∧
      FixedKept s t) ∧
  DecodesAs .CALL 4 fun w => .call (bitsAt 8 4 w)

/-- R194, with the spec's decisions D6 and D8 (notes/assumptions/19.md, 13.md): RET moves `sp` one Word up and reads the return address there. -/
def Obligations.RetPopsTheReturnAddress : Prop :=
  (∀ s : State, s.cfg.stackLo.toNat ≤ s.sp.toNat + 1 → s.sp.toNat + 1 ≤ s.cfg.stackHi.toNat →
    ∃ t, exec .ret s = .next t ∧ t.pc = s.dmem.read (s.sp.toNat + 1) ∧ t.sp.toNat = s.sp.toNat + 1 ∧
      MemKeptBut none s t ∧ RegsKeptBut none s t ∧ t.flags = s.flags ∧ t.halted = s.halted ∧ FixedKept s t) ∧
  DecodesAs .RET 12 fun _ => .ret

/-- R193, R194 and R204 (the spec's decisions D8, D10 and D18): the errors of CALL, the stack before the target, and of
RET. -/
def Obligations.CallAndRetErrors : Prop :=
  ∀ (s : State) (offset8 : BitVec 8),
    (s.sp.toNat < s.cfg.stackLo.toNat ∨ s.cfg.stackHi.toNat < s.sp.toNat →
      exec (.call offset8) s = .fault (.operandRangeError s.sp.toNat (s.pc - 1))) ∧
    (s.cfg.stackLo.toNat ≤ s.sp.toNat → s.sp.toNat ≤ s.cfg.stackHi.toNat → s.cfg.pcOverflow = .fault →
      s.pc.toNat + offset8.toInt < 0 ∨ 0xFFFF < s.pc.toNat + offset8.toInt →
      exec (.call offset8) s = .fault (.operandRangeError (s.pc.toNat + offset8.toInt) (s.pc - 1))) ∧
    (s.sp.toNat + 1 < s.cfg.stackLo.toNat ∨ s.cfg.stackHi.toNat < s.sp.toNat + 1 →
      exec .ret s = .fault (.operandRangeError ((s.sp.toNat : Int) + 1) (s.pc - 1)))

/-- R195 and R128: HALT halts, changes nothing else, and the tick's result is `false`. -/
def Obligations.HaltHalts : Prop :=
  (∀ s : State, ∃ t, exec .halt s = .next t ∧ t = { s with halted := true } ∧ t.tickResult = false) ∧
  DecodesAs .HALT 12 fun _ => .halt

/-- R197: if a CALL whose next address is `s.pc` executes with `sp = S`, and a RET executes with `sp` as the CALL left it
while the slot `S` still reads what the CALL stored, then `pc` is the CALL's next address and `sp` is `S`.  The slot and the
stack checks are the spec's decisions D6 and D8 (notes/assumptions/19.md, 13.md). -/
def Obligations.RetUndoesCall : Prop :=
  ∀ (s t u : State) (offset8 : BitVec 8), s.cfg.wf = true → s.dmem.wf = true → exec (.call offset8) s = .next t →
    u.cfg = t.cfg → u.sp = t.sp → u.dmem.read s.sp.toNat = t.dmem.read s.sp.toNat →
    ∃ v, exec .ret u = .next v ∧ v.pc = s.pc ∧ v.sp = s.sp

/-- R197 over runs: after a CALL, any number of ticks that keep `sp` below the CALL's slot, calls and returns among them,
and then a RET at the CALL's level: the program counter is the address after the CALL and `sp` is what it was.  The slot and
the stack checks are the spec's decisions D6 and D8 (notes/assumptions/19.md, 13.md). -/
def Obligations.NestedCallsReturnToTheirCaller : Prop :=
  ∀ (s s' t u u' : State) (offset8 : BitVec 8) (n : Nat), s.cfg.wf = true → s.dmem.wf = true →
    Executes s (.call offset8) s' → step s = .next t →
    RunWithin (fun w => w.sp.toNat < s.sp.toNat) n t u → Executes u .ret u' → u.sp.toNat + 1 = s.sp.toNat →
    ∃ v, step u = .next v ∧ v.pc = s.pc + 1 ∧ v.sp = s.sp

/-! ### The whole machine -/

/-- R126: what a tick may touch, instruction by instruction.  That RET's popped Word is the one at `sp + 1` is the spec's
decision D6 (notes/assumptions/19.md); the base of a target and its range check are D5 and D10 (notes/assumptions/11.md,
12.md). -/
def Obligations.SideEffectsAreConfined : Prop :=
  (∀ (s s' : State) (i : Instr), Executes s i s' →
    s' = { s with ir := s'.ir, dec := s'.dec, pc := s'.pc } ∧ s'.pc = s.pc + 1) ∧
  (∀ (i : Instr) (s t : State), exec i s = .next t →
    RegsKeptBut (regWritten i) s t ∧ MemKeptBut (addressStored i s) s t ∧ FixedKept s t ∧
    (usesAlu i.mnemonic = false → t.flags = s.flags) ∧
    t.halted = (s.halted || decide (i.mnemonic = .HALT)) ∧
    (i.mnemonic = .CALL → t.sp = s.sp - 1) ∧ (i.mnemonic = .RET → t.sp = s.sp + 1) ∧
    (i.mnemonic ≠ .CALL → i.mnemonic ≠ .RET → t.sp = s.sp) ∧
    (i.mnemonic.format = .BC → t.pc = s.pc ∨ ∃ ra off, (i = .beq ra off ∨ i = .bne ra off) ∧
      branchTarget s.cfg s.pc off = .ok t.pc) ∧
    (i.mnemonic.format = .BU → ∃ off, (i = .b off ∨ i = .call off) ∧ branchTarget s.cfg s.pc off = .ok t.pc) ∧
    (i.mnemonic = .RET → t.pc = s.dmem.read (s.sp.toNat + 1)) ∧
    (i.mnemonic.format ≠ .BC → i.mnemonic.format ≠ .BU → i.mnemonic ≠ .RET → t.pc = s.pc))

/-- R53 and R58: a Word of the stack region changes only in a CALL, any other Word of data memory only in a STORE to its
address.  That the Word a CALL changes is the one the old `sp` names is the slot of R193, the spec's decision D6 (DESIGN
CHOICE, unsafe, notes/assumptions/19.md). -/
def Obligations.OnlyCallWritesTheStackRegion : Prop :=
  ∀ (s t : State) (a : Nat), step s = .next t → t.dmem.read a ≠ s.dmem.read a →
    ((s.cfg.stackLo.toNat ≤ a ∧ a ≤ s.cfg.stackHi.toNat) → ∃ off s', Executes s (.call off) s' ∧ a = s.sp.toNat) ∧
    (¬(s.cfg.stackLo.toNat ≤ a ∧ a ≤ s.cfg.stackHi.toNat) →
      ∃ f1 f2 d s', Executes s (.store f1 f2 d) s' ∧ storeAddress f1 f2 d s' = a)

/-- R29: the flags as one value; only the six ALU instructions change them; and what such an instruction leaves depends on
that instruction alone, but for `C` after a SHFT by 0, which is the `C` from before.  That bits
3:0 of the control Word are the amount, and that `V` is cleared, are the spec's decisions D12 and D14 (DESIGN CHOICE,
notes/assumptions/16.md, 18.md). -/
def Obligations.FlagsComeFromTheLastAluInstruction : Prop :=
  (∀ f : Flags, f.toNat =
    (if f.n then 8 else 0) + (if f.z then 4 else 0) + (if f.c then 2 else 0) + (if f.v then 1 else 0)) ∧
  (∀ s t : State, step s = .next t → t.flags ≠ s.flags → ∃ i s', Executes s i s' ∧ usesAlu i.mnemonic = true) ∧
  (∀ (i : Instr) (s t : State) (f : Flags), usesAlu i.mnemonic = true → exec i s = .next t →
    ∃ t', exec i { s with flags := f } = .next t' ∧ t'.flags.n = t.flags.n ∧ t'.flags.z = t.flags.z ∧
      t'.flags.v = t.flags.v ∧
      (t'.flags.c = t.flags.c ∨
        ∃ rd ra rb, i = .shft rd ra rb ∧ (s.getReg rb).toNat % 16 = 0 ∧ t.flags.c = s.flags.c ∧ t'.flags.c = f.c))

/-- R24: a register that an instruction does not read has no influence on what it does: changing the register first only
changes that register afterwards, or nothing if the instruction overwrites it.  That BEQ and BNE read no register is the
spec's decision D4 (DESIGN CHOICE, notes/assumptions/10.md). -/
def Obligations.UnreadRegistersHaveNoInfluence : Prop :=
  ∀ (i : Instr) (s : State) (k : Reg) (v : Word), k ∉ regsRead i →
    exec i (s.setReg k v) = mapNext (fun t => if regWritten i = some k then t else t.setReg k v) (exec i s)

/-- R28 and R30: `sp` has no influence on an instruction other than CALL and RET, and the flags none on an instruction
other than BEQ, BNE and SHFT. -/
def Obligations.UnreadStackPointerAndFlagsHaveNoInfluence : Prop :=
  ∀ (i : Instr) (s : State) (a : Word) (f : Flags),
    (i.mnemonic ≠ .CALL → i.mnemonic ≠ .RET →
      exec i (s.setSp a) = mapNext (fun t => t.setSp a) (exec i s)) ∧
    (i.mnemonic.format ≠ .BC → i.mnemonic ≠ .SHFT →
      exec i (s.setFlags f) = mapNext (fun t => if usesAlu i.mnemonic then t else t.setFlags f) (exec i s))

/-- R207: which instruction can raise what, and exactly when.  The rule of an instruction faults with the faults the table
lists for it, on the address or target the instruction computes, and with no other, and a running tick faults by its fetch,
by its decode, or by its instruction's rule.  No instruction and no tick is refused.  The checks on targets and on the fetch,
on stack accesses and on LOAD, and the order of CALL's checks, are the choices of notes/assumptions/12.md, 13.md, 14.md, 15.md
and 20.md, and the recorded address of the instruction is 23.md. -/
def Obligations.OnlyTheListedErrorsAreRaised : Prop :=
  ∀ s : State, s.cfg.wf = true →
    (∀ (i : Instr) (f : Fault), exec i s = .fault f ↔ ListedFault i s f) ∧
    (∀ f : Fault, step s = .fault f ↔
      s.halted = false ∧ (FetchDecodeFault s f ∨ ∃ i s', Executes s i s' ∧ ListedFault i s' f)) ∧
    (∀ r : Refusal, (∀ i, exec i s ≠ .refused r) ∧ step s ≠ .refused r)

/-- R23: the register file's ports: an index in [0, 7] reads what stands there and writes there and nowhere else; any other
index is an out-of-range error. -/
def Obligations.RegisterFilePortsCheckTheirIndex : Prop :=
  ∀ (x : Vector Word 8) (k : Int) (v : Word),
    (∀ r : Reg, k = r.val → regFileRead x k = .ok x[r] ∧
      ∃ y, regFileWrite x k v = .ok y ∧ y[r] = v ∧ ∀ q : Reg, q ≠ r → y[q] = x[q]) ∧
    (k < 0 ∨ 7 < k → regFileRead x k = .error (.operandRangeError k) ∧
      regFileWrite x k v = .error (.operandRangeError k))

/-- R96 and R235 (8), under the default `OPMAP` (D1): past the last loaded Word a running core executes `LOADI R0, #0` up to
the top of instruction memory, and the fetch there faults (D10). -/
def Obligations.UnloadedMemoryRunsLoadiToTheTop : Prop :=
  ∀ s : State, s.halted = false → s.cfg.opmap = defaultOpmap → (∀ a, s.pc.toNat ≤ a → s.imem.read a = 0) →
    ∃ t, run (0xFFFF - s.pc.toNat) s = .next t ∧ t.pc = 0xFFFF ∧ t.halted = false ∧ t.sp = s.sp ∧ t.flags = s.flags ∧
      t.dmem = s.dmem ∧ RegsKeptBut (some 0) s t ∧ (s.pc ≠ 0xFFFF → t.getReg 0 = 0 ∧ t.ir = 0) ∧
      (s.cfg.pcOverflow = .fault → step t = .fault (.operandRangeError 0x10000 0xFFFF))

/-- R200: the error codes, and which of them a tick can report: under admitted parameters 1, 2 or 3, and 1 exactly when the
Word it fetched does not decode.  That the numbers of the source's list are the codes is the spec's decision D25 (DESIGN
CHOICE, notes/assumptions/23.md). -/
def Obligations.ErrorCodesAreTheNumbersOfTheList : Prop :=
  (∀ (raw at_ : Word), (Fault.decodeError raw at_).code = 1) ∧
  (∀ (a : Int) (at_ : Word), (Fault.operandRangeError a at_).code = 2) ∧
  (∀ (a : Int) (at_ : Word), (Fault.protectedRegionError a at_).code = 3) ∧
  (∀ ctrl : BitVec 3, (Fault.aluControlError ctrl).code = 4) ∧
  (∀ (e : CoreError) (at_ : Word), (Fault.ofError e at_).code = e.code) ∧
  (∀ (s : State) (f : Fault), s.cfg.wf = true → step s = .fault f →
    (f.code = 1 ∨ f.code = 2 ∨ f.code = 3) ∧
    (f.code = 1 ↔ ∃ s', fetch s = .ok s' ∧ ∀ i, decode s'.cfg.opmap s'.ir ≠ .ok i))
end

