-- ==== Sys2Proof/Laws/Memory.lean ====
section
/-! SUPPORT. The laws of one address space: a read after a write, and the canonical form that every memory operation
keeps. -/

namespace Sys2Proof.Machine

/-- The form from an address up holds from every lower address up. -/
theorem Memory.wfFrom_mono {lo lo' : Nat} {m : Memory} (h : Memory.wfFrom lo m = true) (hle : lo' ≤ lo) :
    Memory.wfFrom lo' m = true := by
  cases m with
  | nil => rfl
  | cons e m =>
    obtain ⟨a, v⟩ := e
    simp only [Memory.wfFrom, Bool.and_eq_true, decide_eq_true_eq] at h ⊢
    exact ⟨⟨⟨by omega, h.1.1.2⟩, h.1.2⟩, h.2⟩

/-- Below the lowest listed address every address reads 0x0000. -/
theorem Memory.read_of_lt {lo a : Nat} {m : Memory} (h : Memory.wfFrom lo m = true) (ha : a < lo) : m.read a = 0 := by
  induction m generalizing lo with
  | nil => rfl
  | cons e m ih =>
    obtain ⟨b, v⟩ := e
    simp only [Memory.wfFrom, Bool.and_eq_true, decide_eq_true_eq] at h
    rw [Memory.read, if_neg (by omega)]
    exact ih h.2 (by omega)

/-- Outside the address space nothing is listed. -/
theorem Memory.read_of_limit_le {lo a : Nat} {m : Memory} (h : Memory.wfFrom lo m = true) (ha : addressLimit ≤ a) :
    m.read a = 0 := by
  induction m generalizing lo with
  | nil => rfl
  | cons e m ih =>
    obtain ⟨b, v⟩ := e
    simp only [Memory.wfFrom, Bool.and_eq_true, decide_eq_true_eq] at h
    rw [Memory.read, if_neg (by omega)]
    exact ih h.2

/-- A write leaves every other address alone. -/
theorem Memory.read_write_of_ne (m : Memory) {a k : Nat} (v : Word) (h : k ≠ a) : (m.write a v).read k = m.read k := by
  induction m with
  | nil =>
    rw [Memory.write]
    split
    · rfl
    · simp [Memory.read, h]
  | cons e m ih =>
    obtain ⟨b, w⟩ := e
    rw [Memory.write]
    by_cases hab : a < b
    · rw [if_pos hab]
      split
      · rfl
      · rw [Memory.read, if_neg h]
    · rw [if_neg hab]
      by_cases hb : a = b
      · subst hb
        rw [if_pos rfl]
        split
        · rw [Memory.read, if_neg h]
        · rw [Memory.read, Memory.read, if_neg h, if_neg h]
      · rw [if_neg hb, Memory.read, Memory.read, ih]

/-- A read after a write to the same address gives the Word written. -/
theorem Memory.read_write_self {lo : Nat} {m : Memory} (h : Memory.wfFrom lo m = true) (a : Nat) (v : Word) :
    (m.write a v).read a = v := by
  induction m generalizing lo with
  | nil =>
    rw [Memory.write]
    split
    · next hv => rw [hv]; rfl
    · simp [Memory.read]
  | cons e m ih =>
    obtain ⟨b, w⟩ := e
    have h' := h
    simp only [Memory.wfFrom, Bool.and_eq_true, decide_eq_true_eq] at h'
    rw [Memory.write]
    by_cases hab : a < b
    · rw [if_pos hab]
      split
      · next hv =>
        rw [hv, Memory.read, if_neg (by omega)]
        exact Memory.read_of_lt h'.2 (by omega)
      · rw [Memory.read, if_pos rfl]
    · rw [if_neg hab]
      by_cases hb : a = b
      · subst hb
        rw [if_pos rfl]
        split
        · next hv => rw [hv]; exact Memory.read_of_lt h'.2 (by omega)
        · rw [Memory.read, if_pos rfl]
      · rw [if_neg hb, Memory.read, if_neg hb]
        exact ih h'.2

/-- A write inside the space keeps the canonical form. -/
theorem Memory.wfFrom_write {lo a : Nat} {m : Memory} (h : Memory.wfFrom lo m = true) (hlo : lo ≤ a)
    (ha : a < addressLimit) (v : Word) : Memory.wfFrom lo (m.write a v) = true := by
  induction m generalizing lo with
  | nil =>
    rw [Memory.write]
    split
    · rfl
    · next hv =>
      simp only [Memory.wfFrom, Bool.and_eq_true, decide_eq_true_eq]
      exact ⟨⟨⟨hlo, ha⟩, hv⟩, trivial⟩
  | cons e m ih =>
    obtain ⟨b, w⟩ := e
    have h' := h
    simp only [Memory.wfFrom, Bool.and_eq_true, decide_eq_true_eq] at h'
    obtain ⟨⟨⟨h1, h2⟩, h3⟩, h4⟩ := h'
    rw [Memory.write]
    by_cases hab : a < b
    · rw [if_pos hab]
      split
      · exact h
      · next hv =>
        simp only [Memory.wfFrom, Bool.and_eq_true, decide_eq_true_eq]
        exact ⟨⟨⟨hlo, ha⟩, hv⟩, ⟨⟨by omega, h2⟩, h3⟩, h4⟩
    · rw [if_neg hab]
      by_cases hb : a = b
      · subst hb
        rw [if_pos rfl]
        split
        · exact Memory.wfFrom_mono h4 (by omega)
        · next hv =>
          simp only [Memory.wfFrom, Bool.and_eq_true, decide_eq_true_eq]
          exact ⟨⟨⟨hlo, ha⟩, hv⟩, h4⟩
      · rw [if_neg hb]
        simp only [Memory.wfFrom, Bool.and_eq_true, decide_eq_true_eq]
        exact ⟨⟨⟨h1, h2⟩, h3⟩, ih h4 (by omega)⟩

/-- A write inside the space keeps the canonical form. -/
theorem Memory.wf_write {a : Nat} {m : Memory} (h : m.wf = true) (ha : a < addressLimit) (v : Word) :
    (m.write a v).wf = true :=
  Memory.wfFrom_write h (Nat.zero_le _) ha v

/-- A read after a write to the same address, on a canonical memory. -/
theorem Memory.read_write_same {m : Memory} (h : m.wf = true) (a : Nat) (v : Word) : (m.write a v).read a = v :=
  Memory.read_write_self h a v

end Sys2Proof.Machine
end

