-- ==== Sys2Proof/Laws/Parameters.lean ====
section
/-! SUPPORT. What an admitted `OPMAP` and an admitted `ALU_CTRL_MAP` give: each is a bijection. -/

namespace Sys2Proof

/-- A list without repeats, as long as a list it is contained in, has all of that list's elements. -/
theorem mem_of_nodup_of_length {α : Type} [DecidableEq α] {l all : List α} (hn : l.Nodup) (hsub : ∀ a ∈ l, a ∈ all)
    (hlen : all.length ≤ l.length) {a : α} (ha : a ∈ all) : a ∈ l :=
  ((hn.subperm hsub).perm_of_length_le hlen).mem_iff.mpr ha

/-- The list of R2 is complete. -/
theorem Mnemonic.mem_all (m : Mnemonic) : m ∈ Mnemonic.all := by
  cases m <;> decide

/-- The list of R140 is complete. -/
theorem AluOp.mem_all (op : AluOp) : op ∈ AluOp.all := by
  cases op <;> decide

/-- Every mnemonic has an opcode. -/
theorem Opmap.mem_of_wf {om : Opmap} (h : Opmap.wf om = true) (m : Mnemonic) : m ∈ om.toList :=
  mem_of_nodup_of_length (of_decide_eq_true h) (fun a _ => a.mem_all) (by simp [Mnemonic.all]) m.mem_all

/-- Every operation has a control code. -/
theorem AluCtrlMap.mem_of_wf {cm : AluCtrlMap} (h : AluCtrlMap.wf cm = true) (op : AluOp) : op ∈ cm.toList :=
  mem_of_nodup_of_length (of_decide_eq_true h) (fun a _ => a.mem_all) (by simp [AluOp.all]) op.mem_all

/-- `OPMAP^-1(OPMAP(m)) = m`. -/
theorem Opmap.mnemonicOf_opcodeOf {om : Opmap} (h : Opmap.wf om = true) (m : Mnemonic) :
    om.mnemonicOf (om.opcodeOf m) = m := by
  have hm := Opmap.mem_of_wf h m
  have hlt : om.toList.idxOf m < 16 := by
    have := List.idxOf_lt_length_iff.mpr hm
    simpa using this
  simp only [Opmap.mnemonicOf, Opmap.opcodeOf, Fin.getElem_fin, BitVec.toFin_ofNat, Fin.val_ofNat,
    Nat.mod_eq_of_lt (show om.toList.idxOf m < 2 ^ 4 from hlt)]
  rw [← Vector.getElem_toList]
  exact List.getElem_idxOf (by simpa using hlt)

/-- `OPMAP(OPMAP^-1(op)) = op`. -/
theorem Opmap.opcodeOf_mnemonicOf {om : Opmap} (h : Opmap.wf om = true) (op : BitVec 4) :
    om.opcodeOf (om.mnemonicOf op) = op := by
  have hn : om.toList.Nodup := of_decide_eq_true h
  simp only [Opmap.mnemonicOf, Opmap.opcodeOf, Fin.getElem_fin]
  rw [← Vector.getElem_toList (h := by simpa using op.isLt), hn.idxOf_getElem]
  simp

end Sys2Proof

namespace Sys2Proof.Machine

/-- The code the core presents for an operation selects that operation (R141). -/
theorem aluSelect_aluCode {cm : AluCtrlMap} (h : AluCtrlMap.wf cm = true) (op : AluOp) :
    aluSelect cm (aluCode cm op) = .ok op := by
  have hlt := List.idxOf_lt_length_iff.mpr (AluCtrlMap.mem_of_wf h op)
  have h5 : cm.toList.idxOf op < 5 := by simpa using hlt
  have hcode : (aluCode cm op).toNat = cm.toList.idxOf op := by
    simp only [aluCode, BitVec.toNat_ofNat]
    omega
  have hget : cm.toList[cm.toList.idxOf op]? = some op := by
    rw [List.getElem?_eq_getElem hlt, List.getElem_idxOf]
  simp only [aluSelect, hcode, hget]

/-- Codes 0 to 4 select an operation (R141). -/
theorem aluSelect_of_lt (cm : AluCtrlMap) {ctrl : BitVec 3} (h : ctrl.toNat < 5) :
    ∃ op, aluSelect cm ctrl = .ok op := by
  have : ctrl.toNat < cm.toList.length := by simpa using h
  exact ⟨cm.toList[ctrl.toNat], by simp only [aluSelect, List.getElem?_eq_getElem this]⟩

/-- Codes 5 to 7 raise `AluControlError` (R151). -/
theorem aluSelect_of_le (cm : AluCtrlMap) {ctrl : BitVec 3} (h : 5 ≤ ctrl.toNat) :
    aluSelect cm ctrl = .error (.aluControlError ctrl) := by
  have : cm.toList[ctrl.toNat]? = none := by
    rw [List.getElem?_eq_none_iff]
    simpa using h
  simp only [aluSelect, this]

end Sys2Proof.Machine
end

