-- ==== Sys2Proof/Laws/State.lean ====
section
/-! SUPPORT. One lemma per field per update of the state, true by rfl, so that no later proof unfolds a record update. -/

namespace Sys2Proof.Machine

variable (s : State)

/-! ### setReg -/

@[simp] theorem State.setReg_pc (r : Reg) (v : Word) : (s.setReg r v).pc = s.pc := rfl
@[simp] theorem State.setReg_sp (r : Reg) (v : Word) : (s.setReg r v).sp = s.sp := rfl
@[simp] theorem State.setReg_flags (r : Reg) (v : Word) : (s.setReg r v).flags = s.flags := rfl
@[simp] theorem State.setReg_ir (r : Reg) (v : Word) : (s.setReg r v).ir = s.ir := rfl
@[simp] theorem State.setReg_dec (r : Reg) (v : Word) : (s.setReg r v).dec = s.dec := rfl
@[simp] theorem State.setReg_halted (r : Reg) (v : Word) : (s.setReg r v).halted = s.halted := rfl
@[simp] theorem State.setReg_imem (r : Reg) (v : Word) : (s.setReg r v).imem = s.imem := rfl
@[simp] theorem State.setReg_dmem (r : Reg) (v : Word) : (s.setReg r v).dmem = s.dmem := rfl
@[simp] theorem State.setReg_cfg (r : Reg) (v : Word) : (s.setReg r v).cfg = s.cfg := rfl
@[simp] theorem State.setReg_x (r : Reg) (v : Word) : (s.setReg r v).x = s.x.set r v := rfl
@[simp] theorem State.setReg_instrAddress (r : Reg) (v : Word) : (s.setReg r v).instrAddress = s.pc - 1 := rfl

/-- The register written holds the value written. -/
@[simp] theorem State.getReg_setReg_self (r : Reg) (v : Word) : (s.setReg r v).getReg r = v := by
  simp [State.getReg]

/-- Every other register keeps its value. -/
@[simp] theorem State.getReg_setReg_of_ne (r k : Reg) (v : Word) (h : k ≠ r) : (s.setReg r v).getReg k = s.getReg k := by
  simp only [State.getReg, State.setReg_x, Fin.getElem_fin]
  exact Vector.getElem_set_ne _ _ (fun e => h (Fin.ext e.symm))

/-! ### setPc -/

@[simp] theorem State.setPc_pc (a : Word) : (s.setPc a).pc = a := rfl
@[simp] theorem State.setPc_sp (a : Word) : (s.setPc a).sp = s.sp := rfl
@[simp] theorem State.setPc_flags (a : Word) : (s.setPc a).flags = s.flags := rfl
@[simp] theorem State.setPc_ir (a : Word) : (s.setPc a).ir = s.ir := rfl
@[simp] theorem State.setPc_dec (a : Word) : (s.setPc a).dec = s.dec := rfl
@[simp] theorem State.setPc_halted (a : Word) : (s.setPc a).halted = s.halted := rfl
@[simp] theorem State.setPc_imem (a : Word) : (s.setPc a).imem = s.imem := rfl
@[simp] theorem State.setPc_dmem (a : Word) : (s.setPc a).dmem = s.dmem := rfl
@[simp] theorem State.setPc_cfg (a : Word) : (s.setPc a).cfg = s.cfg := rfl
@[simp] theorem State.setPc_x (a : Word) : (s.setPc a).x = s.x := rfl
@[simp] theorem State.setPc_getReg (a : Word) (k : Reg) : (s.setPc a).getReg k = s.getReg k := rfl
@[simp] theorem State.setPc_instrAddress (a : Word) : (s.setPc a).instrAddress = a - 1 := rfl

/-! ### setSp -/

@[simp] theorem State.setSp_pc (a : Word) : (s.setSp a).pc = s.pc := rfl
@[simp] theorem State.setSp_sp (a : Word) : (s.setSp a).sp = a := rfl
@[simp] theorem State.setSp_flags (a : Word) : (s.setSp a).flags = s.flags := rfl
@[simp] theorem State.setSp_ir (a : Word) : (s.setSp a).ir = s.ir := rfl
@[simp] theorem State.setSp_dec (a : Word) : (s.setSp a).dec = s.dec := rfl
@[simp] theorem State.setSp_halted (a : Word) : (s.setSp a).halted = s.halted := rfl
@[simp] theorem State.setSp_imem (a : Word) : (s.setSp a).imem = s.imem := rfl
@[simp] theorem State.setSp_dmem (a : Word) : (s.setSp a).dmem = s.dmem := rfl
@[simp] theorem State.setSp_cfg (a : Word) : (s.setSp a).cfg = s.cfg := rfl
@[simp] theorem State.setSp_x (a : Word) : (s.setSp a).x = s.x := rfl
@[simp] theorem State.setSp_getReg (a : Word) (k : Reg) : (s.setSp a).getReg k = s.getReg k := rfl
@[simp] theorem State.setSp_instrAddress (a : Word) : (s.setSp a).instrAddress = s.pc - 1 := rfl

/-! ### setFlags -/

@[simp] theorem State.setFlags_pc (f : Flags) : (s.setFlags f).pc = s.pc := rfl
@[simp] theorem State.setFlags_sp (f : Flags) : (s.setFlags f).sp = s.sp := rfl
@[simp] theorem State.setFlags_flags (f : Flags) : (s.setFlags f).flags = f := rfl
@[simp] theorem State.setFlags_ir (f : Flags) : (s.setFlags f).ir = s.ir := rfl
@[simp] theorem State.setFlags_dec (f : Flags) : (s.setFlags f).dec = s.dec := rfl
@[simp] theorem State.setFlags_halted (f : Flags) : (s.setFlags f).halted = s.halted := rfl
@[simp] theorem State.setFlags_imem (f : Flags) : (s.setFlags f).imem = s.imem := rfl
@[simp] theorem State.setFlags_dmem (f : Flags) : (s.setFlags f).dmem = s.dmem := rfl
@[simp] theorem State.setFlags_cfg (f : Flags) : (s.setFlags f).cfg = s.cfg := rfl
@[simp] theorem State.setFlags_x (f : Flags) : (s.setFlags f).x = s.x := rfl
@[simp] theorem State.setFlags_getReg (f : Flags) (k : Reg) : (s.setFlags f).getReg k = s.getReg k := rfl
@[simp] theorem State.setFlags_instrAddress (f : Flags) : (s.setFlags f).instrAddress = s.pc - 1 := rfl

/-! ### setDmem -/

@[simp] theorem State.setDmem_pc (m : Memory) : (s.setDmem m).pc = s.pc := rfl
@[simp] theorem State.setDmem_sp (m : Memory) : (s.setDmem m).sp = s.sp := rfl
@[simp] theorem State.setDmem_flags (m : Memory) : (s.setDmem m).flags = s.flags := rfl
@[simp] theorem State.setDmem_ir (m : Memory) : (s.setDmem m).ir = s.ir := rfl
@[simp] theorem State.setDmem_dec (m : Memory) : (s.setDmem m).dec = s.dec := rfl
@[simp] theorem State.setDmem_halted (m : Memory) : (s.setDmem m).halted = s.halted := rfl
@[simp] theorem State.setDmem_imem (m : Memory) : (s.setDmem m).imem = s.imem := rfl
@[simp] theorem State.setDmem_dmem (m : Memory) : (s.setDmem m).dmem = m := rfl
@[simp] theorem State.setDmem_cfg (m : Memory) : (s.setDmem m).cfg = s.cfg := rfl
@[simp] theorem State.setDmem_x (m : Memory) : (s.setDmem m).x = s.x := rfl
@[simp] theorem State.setDmem_getReg (m : Memory) (k : Reg) : (s.setDmem m).getReg k = s.getReg k := rfl
@[simp] theorem State.setDmem_instrAddress (m : Memory) : (s.setDmem m).instrAddress = s.pc - 1 := rfl

/-! ### halt -/

@[simp] theorem State.halt_pc : (s.halt).pc = s.pc := rfl
@[simp] theorem State.halt_sp : (s.halt).sp = s.sp := rfl
@[simp] theorem State.halt_flags : (s.halt).flags = s.flags := rfl
@[simp] theorem State.halt_ir : (s.halt).ir = s.ir := rfl
@[simp] theorem State.halt_dec : (s.halt).dec = s.dec := rfl
@[simp] theorem State.halt_halted : (s.halt).halted = true := rfl
@[simp] theorem State.halt_imem : (s.halt).imem = s.imem := rfl
@[simp] theorem State.halt_dmem : (s.halt).dmem = s.dmem := rfl
@[simp] theorem State.halt_cfg : (s.halt).cfg = s.cfg := rfl
@[simp] theorem State.halt_x : (s.halt).x = s.x := rfl
@[simp] theorem State.halt_getReg (k : Reg) : (s.halt).getReg k = s.getReg k := rfl
@[simp] theorem State.halt_instrAddress : (s.halt).instrAddress = s.pc - 1 := rfl

/-! ### fetched -/

@[simp] theorem State.fetched_pc (w seq : Word) : (s.fetched w seq).pc = seq := rfl
@[simp] theorem State.fetched_sp (w seq : Word) : (s.fetched w seq).sp = s.sp := rfl
@[simp] theorem State.fetched_flags (w seq : Word) : (s.fetched w seq).flags = s.flags := rfl
@[simp] theorem State.fetched_ir (w seq : Word) : (s.fetched w seq).ir = w := rfl
@[simp] theorem State.fetched_dec (w seq : Word) : (s.fetched w seq).dec = s.dec := rfl
@[simp] theorem State.fetched_halted (w seq : Word) : (s.fetched w seq).halted = s.halted := rfl
@[simp] theorem State.fetched_imem (w seq : Word) : (s.fetched w seq).imem = s.imem := rfl
@[simp] theorem State.fetched_dmem (w seq : Word) : (s.fetched w seq).dmem = s.dmem := rfl
@[simp] theorem State.fetched_cfg (w seq : Word) : (s.fetched w seq).cfg = s.cfg := rfl
@[simp] theorem State.fetched_x (w seq : Word) : (s.fetched w seq).x = s.x := rfl
@[simp] theorem State.fetched_getReg (w seq : Word) (k : Reg) : (s.fetched w seq).getReg k = s.getReg k := rfl
@[simp] theorem State.fetched_instrAddress (w seq : Word) : (s.fetched w seq).instrAddress = seq - 1 := rfl

/-! ### latched -/

@[simp] theorem State.latched_pc (i : Instr) : (s.latched i).pc = s.pc := rfl
@[simp] theorem State.latched_sp (i : Instr) : (s.latched i).sp = s.sp := rfl
@[simp] theorem State.latched_flags (i : Instr) : (s.latched i).flags = s.flags := rfl
@[simp] theorem State.latched_ir (i : Instr) : (s.latched i).ir = s.ir := rfl
@[simp] theorem State.latched_dec (i : Instr) : (s.latched i).dec = some (decodedRecord s.ir i) := rfl
@[simp] theorem State.latched_halted (i : Instr) : (s.latched i).halted = s.halted := rfl
@[simp] theorem State.latched_imem (i : Instr) : (s.latched i).imem = s.imem := rfl
@[simp] theorem State.latched_dmem (i : Instr) : (s.latched i).dmem = s.dmem := rfl
@[simp] theorem State.latched_cfg (i : Instr) : (s.latched i).cfg = s.cfg := rfl
@[simp] theorem State.latched_x (i : Instr) : (s.latched i).x = s.x := rfl
@[simp] theorem State.latched_getReg (i : Instr) (k : Reg) : (s.latched i).getReg k = s.getReg k := rfl
@[simp] theorem State.latched_instrAddress (i : Instr) : (s.latched i).instrAddress = s.pc - 1 := rfl

/-! ### placeFetchWord -/

@[simp] theorem placeFetchWord_pc (w : Word) : (placeFetchWord s w).pc = s.pc := rfl
@[simp] theorem placeFetchWord_sp (w : Word) : (placeFetchWord s w).sp = s.sp := rfl
@[simp] theorem placeFetchWord_flags (w : Word) : (placeFetchWord s w).flags = s.flags := rfl
@[simp] theorem placeFetchWord_ir (w : Word) : (placeFetchWord s w).ir = s.ir := rfl
@[simp] theorem placeFetchWord_dec (w : Word) : (placeFetchWord s w).dec = s.dec := rfl
@[simp] theorem placeFetchWord_halted (w : Word) : (placeFetchWord s w).halted = false := rfl
@[simp] theorem placeFetchWord_imem (w : Word) : (placeFetchWord s w).imem = s.imem.write s.pc.toNat w := rfl
@[simp] theorem placeFetchWord_dmem (w : Word) : (placeFetchWord s w).dmem = s.dmem := rfl
@[simp] theorem placeFetchWord_cfg (w : Word) : (placeFetchWord s w).cfg = s.cfg := rfl
@[simp] theorem placeFetchWord_x (w : Word) : (placeFetchWord s w).x = s.x := rfl

/-! ### Updates that meet -/

/-- Of two writes to one register the later one counts. -/
@[simp] theorem State.setReg_setReg_self (r : Reg) (v w : Word) : (s.setReg r v).setReg r w = s.setReg r w := by
  simp [State.setReg]

/-- Writes to two registers commute. -/
theorem State.setReg_comm (r k : Reg) (v w : Word) (h : k ≠ r) :
    (s.setReg k w).setReg r v = (s.setReg r v).setReg k w := by
  simp only [State.setReg]
  congr 1
  exact Vector.set_comm _ _ (fun e => h (Fin.ext e))

end Sys2Proof.Machine
end

