-- ==== Sys2Proof/Laws/Ops.lean ====
section
/-! SUPPORT. For each shared operation, once, everything it can do: later proofs cite these and do not unfold it. -/

namespace Sys2Proof.Machine

/-! ### Operands -/

/-- `sext_n` is the two's-complement reading. -/
theorem sext_eq_toInt {n : Nat} (v : BitVec n) : sext v = v.toInt := by
  simp only [sext, BitVec.toInt]
  push_cast
  rfl

/-- An unsigned Word is not changed by masking. -/
@[simp] theorem wordOfInt_toNat (w : Word) : wordOfInt (w.toNat : Int) = w := by
  simp [wordOfInt]

/-- The unsigned value of a masked integer. -/
theorem toNat_wordOfInt (v : Int) : ((wordOfInt v).toNat : Int) = v % 65536 := by
  simp only [wordOfInt, BitVec.toNat_ofInt]
  omega

/-- The address space as an interval. -/
theorem inAddressSpace_iff {a : Int} : inAddressSpace a = true ↔ 0 ≤ a ∧ a ≤ 0xFFFF := by
  simp only [inAddressSpace, Bool.and_eq_true, decide_eq_true_eq]
  omega

/-- The complement of the address space. -/
theorem inAddressSpace_eq_false_iff {a : Int} : inAddressSpace a = false ↔ a < 0 ∨ 0xFFFF < a := by
  rw [← Bool.not_eq_true, inAddressSpace_iff]
  omega

/-- A program counter in range is the integer itself. -/
theorem pcAddress_of_mem (c : Config) {a : Int} (h : inAddressSpace a = true) : pcAddress c a = .ok (wordOfInt a) :=
  if_pos h

/-- Under `wrap` a program counter is reduced. -/
theorem pcAddress_of_wrap {c : Config} (h : c.pcOverflow = .wrap) (a : Int) : pcAddress c a = .ok (wordOfInt a) := by
  simp [pcAddress, h]

/-- Under `fault` a program counter out of range raises `OperandRangeError`. -/
theorem pcAddress_of_fault {c : Config} (h : c.pcOverflow = .fault) {a : Int} (ha : inAddressSpace a = false) :
    pcAddress c a = .error (.operandRangeError a) := by
  simp [pcAddress, h, ha]

/-- All that `pcAddress` can do. -/
theorem pcAddress_cases (c : Config) (a : Int) :
    ((inAddressSpace a = true ∨ c.pcOverflow = .wrap) ∧ pcAddress c a = .ok (wordOfInt a)) ∨
    (inAddressSpace a = false ∧ c.pcOverflow = .fault ∧ pcAddress c a = .error (.operandRangeError a)) := by
  cases h : inAddressSpace a with
  | true => exact .inl ⟨.inl rfl, pcAddress_of_mem c h⟩
  | false =>
    cases hc : c.pcOverflow with
    | fault => exact .inr ⟨rfl, rfl, pcAddress_of_fault hc h⟩
    | wrap => exact .inl ⟨.inr rfl, pcAddress_of_wrap hc a⟩

/-! ### Access paths -/

/-- All that the ordinary check can do (R56, R57). -/
theorem ordinaryCheck_cases (c : Config) (a : Int) :
    (inAddressSpace a = false ∧ ordinaryCheck c a = .error (.operandRangeError a)) ∨
    (inAddressSpace a = true ∧ inStackRegion c a = true ∧ ordinaryCheck c a = .error (.protectedRegionError a)) ∨
    (inAddressSpace a = true ∧ inStackRegion c a = false ∧ ordinaryCheck c a = .ok a.toNat) := by
  unfold ordinaryCheck
  cases inAddressSpace a <;> cases inStackRegion c a <;> simp

/-- All that the stack check can do (R59, R60). -/
theorem stackCheck_cases (c : Config) (a : Int) :
    (inStackRegion c a = false ∧ stackCheck c a = .error (.operandRangeError a)) ∨
    (inStackRegion c a = true ∧ stackCheck c a = .ok a.toNat) := by
  unfold stackCheck
  cases inStackRegion c a <;> simp

/-- The stack region as an interval. -/
theorem inStackRegion_iff {c : Config} {a : Int} :
    inStackRegion c a = true ↔ (c.stackLo.toNat : Int) ≤ a ∧ a ≤ c.stackHi.toNat := by
  simp only [inStackRegion, Bool.and_eq_true, decide_eq_true_eq]

/-- An address of the space, as a number. -/
theorem toNat_lt_of_inAddressSpace {a : Int} (h : inAddressSpace a = true) : a.toNat < addressLimit := by
  rw [inAddressSpace_iff] at h
  simp only [addressLimit]
  omega

/-- The stack region lies inside the space. -/
theorem inAddressSpace_of_inStackRegion {c : Config} {a : Int} (h : inStackRegion c a = true) :
    inAddressSpace a = true := by
  rw [inStackRegion_iff] at h
  have := c.stackHi.isLt
  rw [inAddressSpace_iff]
  omega

/-- All that an ordinary write can do when it answers a memory. -/
theorem memWrite_ok {c : Config} {m m' : Memory} {a : Int} {v : Word} (h : memWrite c m a v = .ok m') :
    inAddressSpace a = true ∧ inStackRegion c a = false ∧ m' = m.write a.toNat v := by
  unfold memWrite at h
  obtain ⟨-, e⟩ | ⟨-, -, e⟩ | ⟨h1, h2, e⟩ := ordinaryCheck_cases c a <;> rw [e] at h
  · cases h
  · cases h
  · exact ⟨h1, h2, (Except.ok.inj h).symm⟩

/-- All that a stack write can do when it answers a memory. -/
theorem stackWrite_ok {c : Config} {m m' : Memory} {a : Int} {v : Word} (h : stackWrite c m a v = .ok m') :
    inStackRegion c a = true ∧ m' = m.write a.toNat v := by
  unfold stackWrite at h
  obtain ⟨-, e⟩ | ⟨h1, e⟩ := stackCheck_cases c a <;> rw [e] at h
  · cases h
  · exact ⟨h1, (Except.ok.inj h).symm⟩

/-- All that an ordinary read can do when it answers a Word. -/
theorem memRead_ok {c : Config} {m : Memory} {a : Int} {v : Word} (h : memRead c m a = .ok v) :
    inAddressSpace a = true ∧ inStackRegion c a = false ∧ v = m.read a.toNat := by
  unfold memRead at h
  obtain ⟨-, e⟩ | ⟨-, -, e⟩ | ⟨h1, h2, e⟩ := ordinaryCheck_cases c a <;> rw [e] at h
  · cases h
  · cases h
  · exact ⟨h1, h2, (Except.ok.inj h).symm⟩

/-- All that a stack read can do when it answers a Word. -/
theorem stackRead_ok {c : Config} {m : Memory} {a : Int} {v : Word} (h : stackRead c m a = .ok v) :
    inStackRegion c a = true ∧ v = m.read a.toNat := by
  unfold stackRead at h
  obtain ⟨-, e⟩ | ⟨h1, e⟩ := stackCheck_cases c a <;> rw [e] at h
  · cases h
  · exact ⟨h1, (Except.ok.inj h).symm⟩

/-- An ordinary write keeps the canonical form. -/
theorem memWrite_wf {c : Config} {m m' : Memory} {a : Int} {v : Word} (hm : m.wf = true)
    (h : memWrite c m a v = .ok m') : m'.wf = true := by
  obtain ⟨h1, -, rfl⟩ := memWrite_ok h
  exact Memory.wf_write hm (toNat_lt_of_inAddressSpace h1) v

/-- A stack write keeps the canonical form. -/
theorem stackWrite_wf {c : Config} {m m' : Memory} {a : Int} {v : Word} (hm : m.wf = true)
    (h : stackWrite c m a v = .ok m') : m'.wf = true := by
  obtain ⟨h1, rfl⟩ := stackWrite_ok h
  exact Memory.wf_write hm (toNat_lt_of_inAddressSpace (inAddressSpace_of_inStackRegion h1)) v

/-- A write of the load phase keeps the canonical form. -/
theorem imemWrite_wf {ph : Phase} {m m' : Memory} {a : Int} {v : Word} (hm : m.wf = true)
    (h : imemWrite ph m a v = .ok m') : m'.wf = true := by
  cases ph with
  | running => cases h
  | loading =>
    simp only [imemWrite] at h
    split at h
    · next ha =>
      exact Except.ok.inj h ▸ Memory.wf_write hm (toNat_lt_of_inAddressSpace ha) v
    · cases h

/-- Loading a program keeps the canonical form. -/
theorem loadProgram_wf {m m' : Memory} {a : Nat} {ws : List Word} (hm : m.wf = true)
    (h : loadProgram m a ws = .ok m') : m'.wf = true := by
  induction ws generalizing m a with
  | nil => exact Except.ok.inj h ▸ hm
  | cons w ws ih =>
    rw [loadProgram] at h
    split at h
    · next hw => exact ih (imemWrite_wf hm hw) h
    · cases h

/-- Loading data keeps the canonical form. -/
theorem loadData_wf {m : Memory} (hm : m.wf = true) (l : List (Word × Word)) : (loadData m l).wf = true := by
  induction l generalizing m with
  | nil => exact hm
  | cons p l ih => exact ih (Memory.wf_write hm p.1.isLt p.2)

/-- Placing a fetch Word keeps the canonical form. -/
theorem placeFetchWord_imem_wf {s : State} (hm : s.imem.wf = true) (w : Word) : (placeFetchWord s w).imem.wf = true :=
  Memory.wf_write hm s.pc.isLt w

/-! ### The ALU -/

/-- What the ALU answers for an operation's own code (R125, R142). -/
theorem alu_aluCode {cm : AluCtrlMap} (h : AluCtrlMap.wf cm = true) (op : AluOp) (a b : Int) (f : Flags) :
    alu cm (aluCode cm op) a b f = .ok (withResultFlags (aluOperate op (wordOfInt a) (wordOfInt b) f.c)) := by
  simp only [alu, aluSelect_aluCode h op]

/-- An admitted configuration has an admitted `ALU_CTRL_MAP`. -/
theorem aluCtrl_wf_of_wf {c : Config} (h : c.wf = true) : AluCtrlMap.wf c.aluCtrl = true := by
  simp only [Config.wf, Bool.and_eq_true] at h
  exact h.1.2

/-- An admitted configuration has an admitted `OPMAP`. -/
theorem opmap_wf_of_wf {c : Config} (h : c.wf = true) : Opmap.wf c.opmap = true := by
  simp only [Config.wf, Bool.and_eq_true] at h
  exact h.1.1

/-- An admitted configuration has stack bounds in order. -/
theorem stack_bounds_of_wf {c : Config} (h : c.wf = true) :
    1 ≤ c.stackLo.toNat ∧ c.stackLo.toNat ≤ c.stackHi.toNat := by
  simp only [Config.wf, Config.stackWf, Bool.and_eq_true, decide_eq_true_eq] at h
  exact h.2

/-- Under an admitted configuration an ALU instruction always completes, with the operation's result and flags. -/
theorem aluToReg_next {s : State} (h : s.cfg.wf = true) (op : AluOp) (rd : Reg) (a b : Word) :
    aluToReg op rd a b s =
      .next ((s.setReg rd (withResultFlags (aluOperate op a b s.flags.c)).1).setFlags
        (withResultFlags (aluOperate op a b s.flags.c)).2) := by
  simp only [aluToReg, alu_aluCode (aluCtrl_wf_of_wf h), wordOfInt_toNat]

/-- All that an ALU instruction can do: write one register and the flags, or raise. -/
theorem aluToReg_cases (op : AluOp) (rd : Reg) (a b : Word) (s : State) :
    (∃ r f, aluToReg op rd a b s = .next ((s.setReg rd r).setFlags f)) ∨ (∃ e, aluToReg op rd a b s = raise s e) := by
  unfold aluToReg
  split
  · exact .inl ⟨_, _, rfl⟩
  · exact .inr ⟨_, rfl⟩

/-! ### Control transfer -/

/-- All that a relative jump can do. -/
theorem jump_cases (offset8 : BitVec 8) (s : State) :
    (∃ t, branchTarget s.cfg s.pc offset8 = .ok t ∧ jump offset8 s = .next (s.setPc t)) ∨
    (∃ e, branchTarget s.cfg s.pc offset8 = .error e ∧ jump offset8 s = raise s e) := by
  unfold jump
  split
  · next h => exact .inl ⟨_, h, rfl⟩
  · next h => exact .inr ⟨_, h, rfl⟩

/-! ### The steps of a tick -/

/-- All that the fetch step can do when it answers a state (R122). -/
theorem fetch_ok {s s' : State} (h : fetch s = .ok s') :
    ∃ seq, seqAddress s.cfg s.pc = .ok seq ∧ s' = s.fetched (imemRead s.imem s.pc) seq := by
  unfold fetch at h
  split at h
  · next seq hs => exact ⟨seq, hs, (Except.ok.inj h).symm⟩
  · cases h

/-- All that the decode step can do when it answers an instruction (R123). -/
theorem decodeStep_ok {s s' : State} {i : Instr} (h : decodeStep s = .ok (i, s')) :
    decode s.cfg.opmap s.ir = .ok i ∧ s' = s.latched i := by
  unfold decodeStep at h
  split at h
  · next j hd =>
    obtain ⟨rfl, rfl⟩ := Prod.mk.inj (Except.ok.inj h)
    exact ⟨hd, rfl⟩
  · cases h

/-- All that fetch and decode can do when they answer an instruction (R122, R123). -/
theorem fetchDecode_ok {s s' : State} {i : Instr} (h : fetchDecode s = .ok (i, s')) :
    ∃ seq, seqAddress s.cfg s.pc = .ok seq ∧ decode s.cfg.opmap (imemRead s.imem s.pc) = .ok i ∧
      s' = (s.fetched (imemRead s.imem s.pc) seq).latched i := by
  unfold fetchDecode at h
  split at h
  · next s1 hf =>
    obtain ⟨seq, hs, rfl⟩ := fetch_ok hf
    obtain ⟨hd, rfl⟩ := decodeStep_ok h
    exact ⟨seq, hs, hd, rfl⟩
  · cases h

/-- All that a step can do when it answers a state: nothing to a halted core, or run the decoded instruction. -/
theorem step_next {s t : State} (h : step s = .next t) :
    (s.halted = true ∧ t = s) ∨ (s.halted = false ∧ ∃ i s', fetchDecode s = .ok (i, s') ∧ exec i s' = .next t) := by
  unfold step at h
  split at h
  · next hh => exact .inl ⟨hh, (Host.Outcome.next.inj h).symm⟩
  · next hh =>
    refine .inr ⟨by simpa using hh, ?_⟩
    split at h
    · cases h
    · next i s' hf => exact ⟨i, s', hf, h⟩

/-- A halted core's step. -/
theorem step_of_halted {s : State} (h : s.halted = true) : step s = .next s := by
  simp [step, h]

/-- A running core's step on an instruction it can fetch and decode. -/
theorem step_of_fetchDecode {s s' : State} {i : Instr} (hh : s.halted = false) (h : fetchDecode s = .ok (i, s')) :
    step s = exec i s' := by
  simp [step, hh, h]

end Sys2Proof.Machine
end

