-- ==== Sys2Proof/Laws/PerInstr.lean ====
section
/-! SUPPORT. The family EncodedLayout: the Word of every instruction as a number, the opcode of its mnemonic in bits
15:12 (R81) above its fields at the positions of R86 to R92, and the zero field 0 (R94, R98). -/

namespace Sys2Proof.Laws.EncodedLayout

/-- An appended bit vector as a number. -/
theorem append_toNat {m n : Nat} (x : BitVec m) (y : BitVec n) : (x ++ y).toNat = x.toNat * 2 ^ n + y.toNat := by
  rw [BitVec.toNat_append, ← Nat.shiftLeft_add_eq_or_of_lt y.isLt, Nat.shiftLeft_eq]

/-- A register field as a number. -/
theorem regBits_toNat (r : Reg) : (regBits r).toNat = r.val := rfl

/-- The fields of an instruction below its opcode, as a number (R86 to R92). -/
def fieldBits : Instr → Nat
  | .loadi r imm => r.val * 512 + imm.toNat * 2
  | .lui r imm => r.val * 512 + imm.toNat * 2
  | .load p q imm => p.val * 512 + q.val * 64 + imm.toNat
  | .store p q imm => p.val * 512 + q.val * 64 + imm.toNat
  | .addi p q imm => p.val * 512 + q.val * 64 + imm.toNat
  | .add rd ra rb => rd.val * 512 + ra.val * 64 + rb.val * 8
  | .sub rd ra rb => rd.val * 512 + ra.val * 64 + rb.val * 8
  | .and rd ra rb => rd.val * 512 + ra.val * 64 + rb.val * 8
  | .or rd ra rb => rd.val * 512 + ra.val * 64 + rb.val * 8
  | .shft rd ra rb => rd.val * 512 + ra.val * 64 + rb.val * 8
  | .beq r imm => r.val * 512 + imm.toNat * 2
  | .bne r imm => r.val * 512 + imm.toNat * 2
  | .b off => off.toNat * 16
  | .call off => off.toNat * 16
  | .ret => 0
  | .halt => 0

/-- The Word of an instruction, and that its fields leave the opcode and the zero field free. -/
def Statement (i : Instr) : Prop :=
  (∀ om : Opmap, (encode om i).toNat = (om.opcodeOf i.mnemonic).toNat * 4096 + fieldBits i) ∧
    fieldBits i < 4096 ∧ fieldBits i % 2 ^ i.mnemonic.format.zeroWidth = 0

theorem loadi (r : Reg) (imm : BitVec 8) : Statement (.loadi r imm) := by
  refine ⟨fun om => ?_, ?_, ?_⟩
  · simp only [encode, Instr.mnemonic, append_toNat, fieldBits, regBits_toNat, BitVec.toNat_ofNat]
    omega
  all_goals
    simp only [Instr.mnemonic, Mnemonic.format, Format.zeroWidth, fieldBits]
    omega

theorem lui (r : Reg) (imm : BitVec 8) : Statement (.lui r imm) := by
  refine ⟨fun om => ?_, ?_, ?_⟩
  · simp only [encode, Instr.mnemonic, append_toNat, fieldBits, regBits_toNat, BitVec.toNat_ofNat]
    omega
  all_goals
    simp only [Instr.mnemonic, Mnemonic.format, Format.zeroWidth, fieldBits]
    omega

theorem load (p q : Reg) (imm : BitVec 6) : Statement (.load p q imm) := by
  refine ⟨fun om => ?_, ?_, ?_⟩
  · simp only [encode, Instr.mnemonic, append_toNat, fieldBits, regBits_toNat]
    omega
  all_goals
    simp only [Instr.mnemonic, Mnemonic.format, Format.zeroWidth, fieldBits]
    omega

theorem store (p q : Reg) (imm : BitVec 6) : Statement (.store p q imm) := by
  refine ⟨fun om => ?_, ?_, ?_⟩
  · simp only [encode, Instr.mnemonic, append_toNat, fieldBits, regBits_toNat]
    omega
  all_goals
    simp only [Instr.mnemonic, Mnemonic.format, Format.zeroWidth, fieldBits]
    omega

theorem addi (p q : Reg) (imm : BitVec 6) : Statement (.addi p q imm) := by
  refine ⟨fun om => ?_, ?_, ?_⟩
  · simp only [encode, Instr.mnemonic, append_toNat, fieldBits, regBits_toNat]
    omega
  all_goals
    simp only [Instr.mnemonic, Mnemonic.format, Format.zeroWidth, fieldBits]
    omega

theorem add (rd ra rb : Reg) : Statement (.add rd ra rb) := by
  refine ⟨fun om => ?_, ?_, ?_⟩
  · simp only [encode, Instr.mnemonic, append_toNat, fieldBits, regBits_toNat, BitVec.toNat_ofNat]
    omega
  all_goals
    simp only [Instr.mnemonic, Mnemonic.format, Format.zeroWidth, fieldBits]
    omega

theorem sub (rd ra rb : Reg) : Statement (.sub rd ra rb) := by
  refine ⟨fun om => ?_, ?_, ?_⟩
  · simp only [encode, Instr.mnemonic, append_toNat, fieldBits, regBits_toNat, BitVec.toNat_ofNat]
    omega
  all_goals
    simp only [Instr.mnemonic, Mnemonic.format, Format.zeroWidth, fieldBits]
    omega

theorem and (rd ra rb : Reg) : Statement (.and rd ra rb) := by
  refine ⟨fun om => ?_, ?_, ?_⟩
  · simp only [encode, Instr.mnemonic, append_toNat, fieldBits, regBits_toNat, BitVec.toNat_ofNat]
    omega
  all_goals
    simp only [Instr.mnemonic, Mnemonic.format, Format.zeroWidth, fieldBits]
    omega

theorem or (rd ra rb : Reg) : Statement (.or rd ra rb) := by
  refine ⟨fun om => ?_, ?_, ?_⟩
  · simp only [encode, Instr.mnemonic, append_toNat, fieldBits, regBits_toNat, BitVec.toNat_ofNat]
    omega
  all_goals
    simp only [Instr.mnemonic, Mnemonic.format, Format.zeroWidth, fieldBits]
    omega

theorem shft (rd ra rb : Reg) : Statement (.shft rd ra rb) := by
  refine ⟨fun om => ?_, ?_, ?_⟩
  · simp only [encode, Instr.mnemonic, append_toNat, fieldBits, regBits_toNat, BitVec.toNat_ofNat]
    omega
  all_goals
    simp only [Instr.mnemonic, Mnemonic.format, Format.zeroWidth, fieldBits]
    omega

theorem beq (r : Reg) (imm : BitVec 8) : Statement (.beq r imm) := by
  refine ⟨fun om => ?_, ?_, ?_⟩
  · simp only [encode, Instr.mnemonic, append_toNat, fieldBits, regBits_toNat, BitVec.toNat_ofNat]
    omega
  all_goals
    simp only [Instr.mnemonic, Mnemonic.format, Format.zeroWidth, fieldBits]
    omega

theorem bne (r : Reg) (imm : BitVec 8) : Statement (.bne r imm) := by
  refine ⟨fun om => ?_, ?_, ?_⟩
  · simp only [encode, Instr.mnemonic, append_toNat, fieldBits, regBits_toNat, BitVec.toNat_ofNat]
    omega
  all_goals
    simp only [Instr.mnemonic, Mnemonic.format, Format.zeroWidth, fieldBits]
    omega

theorem b (off : BitVec 8) : Statement (.b off) := by
  refine ⟨fun om => ?_, ?_, ?_⟩
  · simp only [encode, Instr.mnemonic, append_toNat, fieldBits, BitVec.toNat_ofNat]
    omega
  all_goals
    simp only [Instr.mnemonic, Mnemonic.format, Format.zeroWidth, fieldBits]
    omega

theorem call (off : BitVec 8) : Statement (.call off) := by
  refine ⟨fun om => ?_, ?_, ?_⟩
  · simp only [encode, Instr.mnemonic, append_toNat, fieldBits, BitVec.toNat_ofNat]
    omega
  all_goals
    simp only [Instr.mnemonic, Mnemonic.format, Format.zeroWidth, fieldBits]
    omega

theorem ret : Statement .ret := by
  refine ⟨fun om => ?_, ?_, ?_⟩
  · simp only [encode, Instr.mnemonic, append_toNat, fieldBits, BitVec.toNat_ofNat]
    omega
  all_goals
    simp only [Instr.mnemonic, Mnemonic.format, Format.zeroWidth, fieldBits]
    omega

theorem halt : Statement .halt := by
  refine ⟨fun om => ?_, ?_, ?_⟩
  · simp only [encode, Instr.mnemonic, append_toNat, fieldBits, BitVec.toNat_ofNat]
    omega
  all_goals
    simp only [Instr.mnemonic, Mnemonic.format, Format.zeroWidth, fieldBits]
    omega

end Sys2Proof.Laws.EncodedLayout
end

