-- ==== Sys2Proof/Laws/Runs.lean ====
section
/-! SUPPORT. Runs, one tick at a time. -/

namespace Sys2Proof.Machine

/-- No tick. -/
@[simp] theorem run_zero (s : State) : run 0 s = .next s := rfl

/-- One tick and then the rest. -/
theorem run_succ (k : Nat) (s : State) :
    run (k + 1) s = match step s with
      | .next t => run k t
      | .fault r => .fault r
      | .refused r => .refused r := by
  simp only [run, Host.Core.run]
  cases h : step s <;> simp only [h, core]

/-- A run of `k + 1` completed ticks begins with one. -/
theorem run_succ_next {k : Nat} {s t : State} (h : run (k + 1) s = .next t) : ∃ u, step s = .next u ∧ run k u = .next t := by
  rw [run_succ] at h
  split at h
  · next u hu => exact ⟨u, hu, h⟩
  · cases h
  · cases h

/-- What one tick keeps, a run keeps. -/
theorem run_induction {P : State → Prop} (hP : ∀ s t, P s → step s = .next t → P t) {k : Nat} {s t : State} (hs : P s)
    (h : run k s = .next t) : P t := by
  induction k generalizing s with
  | zero => exact Host.Outcome.next.inj h ▸ hs
  | succ k ih =>
    obtain ⟨u, hu, h⟩ := run_succ_next h
    exact ih (hP s u hs hu) h

/-- The first state of a run within `P` satisfies it. -/
theorem RunWithin.head {P : State → Prop} {n : Nat} {s t : State} (h : RunWithin P n s t) : P s := by
  cases n <;> exact h.1

/-- The last state of a run within `P` satisfies it. -/
theorem RunWithin.last {P : State → Prop} {n : Nat} {s t : State} (h : RunWithin P n s t) : P t := by
  induction n generalizing s with
  | zero => exact h.2 ▸ h.1
  | succ n ih =>
    obtain ⟨-, u, -, h⟩ := h
    exact ih h

end Sys2Proof.Machine
end

