-- ==== Sys2Proof/Tests/Slice0.lean ====
section
/-! SUPPORT. The model's own tests: the well-formedness checks refuse, Words written out from spec/30_encoding.md R103
decode to what they stand for, single steps give what spec/95_test_vectors.md lists, and the hypotheses of every
statement for the provers are met by a concrete state. -/

namespace Sys2Proof.Tests
open Sys2Proof Sys2Proof.Machine

/-! ### Helpers -/

/-- The next state of an outcome. -/
def next? : Host.Outcome State Fault Refusal → Option State
  | .next s => some s
  | .fault _ => none
  | .refused _ => none

/-- The fault of an outcome. -/
def fault? : Host.Outcome State Fault Refusal → Option Fault
  | .next _ => none
  | .fault f => some f
  | .refused _ => none

/-- The value of a result without an error. -/
def value? {α : Type} : Except CoreError α → Option α
  | .ok a => some a
  | .error _ => none

/-- The error of a result. -/
def error? {α : Type} : Except CoreError α → Option CoreError
  | .ok _ => none
  | .error e => some e

/-- The reset state with R0 to R3 set. -/
def regs (x0 x1 x2 x3 : Word) : State := { State.reset with x := #v[x0, x1, x2, x3, 0, 0, 0, 0] }

/-- A state with the program counter at `pc` and the Word `w` there. -/
def placed (pc : Word) (w : Nat) (s : State) : State := { s with pc := pc }.withFetchWord 16 w

/-- The state one tick later. -/
def tick (pc : Word) (w : Nat) (s : State) : Option State := next? (step (placed pc w s))

/-- The fault of one tick. -/
def tickFault (pc : Word) (w : Nat) (s : State) : Option Fault := fault? (step (placed pc w s))

/-- The flags from `N Z C V` as one value (R29). -/
def nzcv (k : Nat) : Flags := ⟨k.testBit 3, k.testBit 2, k.testBit 1, k.testBit 0⟩

/-- A state with given flags. -/
def flagged (k : Nat) (s : State) : State := { s with flags := nzcv k }

/-- Result and flags of one ALU operation under the default control codes. -/
def aluRow (op : AluOp) (a b : Word) (k : Nat) : Option (Word × Nat) :=
  match alu defaultAluCtrlMap (aluCode defaultAluCtrlMap op) a.toNat b.toNat (nzcv k) with
  | .ok (r, f) => some (r, f.toNat)
  | .error _ => none

/-! ### Well-formedness -/

/-- The default configuration and the empty launch are admitted. -/
theorem test_defaults_wf : defaultConfig.wf = true ∧ defaultLaunch.wf = true := by decide

/-- An `OPMAP` with a mnemonic twice is refused (R85). -/
theorem test_opmap_repeat_refused : Opmap.wf (defaultOpmap.set 3 .LOAD) = false := by decide

/-- An `ALU_CTRL_MAP` with an operation twice is refused (R141). -/
theorem test_aluCtrl_repeat_refused : AluCtrlMap.wf #v[.add, .sub, .and, .or, .or] = false := by decide

/-- `STACK_LO = 0` is refused (R53). -/
theorem test_stackLo_zero_refused : Config.wf { defaultConfig with stackLo := 0 } = false := by decide

/-- `STACK_LO > STACK_HI` is refused (R53). -/
theorem test_stack_order_refused : Config.wf { defaultConfig with stackLo := 0xFF01, stackHi := 0xFF00 } = false := by
  decide

/-- A configuration with a repeated mnemonic or a repeated operation is refused. -/
theorem test_config_maps_refused :
    Config.wf { defaultConfig with opmap := defaultOpmap.set 0 .HALT } = false ∧
    Config.wf { defaultConfig with aluCtrl := #v[.add, .add, .and, .or, .shft] } = false := by decide

/-- A program of 65537 Words is refused, one of 65536 admitted. -/
theorem test_launch_length :
    Launch.wf { defaultLaunch with program := List.replicate 65537 0 } = false ∧
    Launch.wf { defaultLaunch with program := List.replicate 65536 0 } = true := by
  refine ⟨?_, ?_⟩ <;> (simp only [Launch.wf, List.length_replicate]; decide)

/-- Register operands 8 and -1 are out of range (R98). -/
theorem test_regInRange_refused : regInRange 8 = false ∧ regInRange (-1) = false ∧ regInRange 7 = true := by decide

/-- Operands one past either end of their range are refused, format by format (R99). -/
theorem test_operandsInRange_refused :
    operandsInRange .I8 [0, 256] = false ∧ operandsInRange .I8 [0, -1] = false ∧ operandsInRange .I8 [8, 0] = false ∧
    operandsInRange .I6 [0, 0, 32] = false ∧ operandsInRange .I6 [0, 0, -33] = false ∧
    operandsInRange .M [0, 8, 0] = false ∧ operandsInRange .R [0, 0, 8] = false ∧
    operandsInRange .BC [0, 128] = false ∧ operandsInRange .BU [-129] = false ∧ operandsInRange .O [0] = false ∧
    operandsInRange .R [0, 0] = false := by decide

/-- Operands at either end of their range are admitted. -/
theorem test_operandsInRange_admitted :
    operandsInRange .I8 [7, 255] = true ∧ operandsInRange .I6 [7, 0, -32] = true ∧ operandsInRange .M [0, 7, 31] = true ∧
    operandsInRange .R [7, 7, 7] = true ∧ operandsInRange .BC [0, -128] = true ∧ operandsInRange .BU [127] = true ∧
    operandsInRange .O [] = true := by decide

/-! ### Decoding: Words of spec/30_encoding.md R103 and spec/95_test_vectors.md 2.1, written bit by bit -/

/-- LOADI R3, #171. -/
theorem test_decode_loadi : value? (decode defaultOpmap 0b0000_011_10101011_0) = some (.loadi 3 171) := by decide
/-- LUI R3, #18. -/
theorem test_decode_lui : value? (decode defaultOpmap 0b0001_011_00010010_0) = some (.lui 3 18) := by decide
/-- LOAD R2, R1, #-1. -/
theorem test_decode_load : value? (decode defaultOpmap 0b0010_010_001_111111) = some (.load 2 1 63) := by decide
/-- STORE R2, R1, #5. -/
theorem test_decode_store : value? (decode defaultOpmap 0b0011_010_001_000101) = some (.store 2 1 5) := by decide
/-- ADDI R1, R1, #-1. -/
theorem test_decode_addi : value? (decode defaultOpmap 0b0100_001_001_111111) = some (.addi 1 1 63) := by decide
/-- ADD R3, R1, R2. -/
theorem test_decode_add : value? (decode defaultOpmap 0b0101_011_001_010_000) = some (.add 3 1 2) := by decide
/-- SUB R1, R1, R2. -/
theorem test_decode_sub : value? (decode defaultOpmap 0b0110_001_001_010_000) = some (.sub 1 1 2) := by decide
/-- AND R3, R1, R2. -/
theorem test_decode_and : value? (decode defaultOpmap 0b0111_011_001_010_000) = some (.and 3 1 2) := by decide
/-- OR R3, R1, R2. -/
theorem test_decode_or : value? (decode defaultOpmap 0b1000_011_001_010_000) = some (.or 3 1 2) := by decide
/-- SHFT R3, R1, R2. -/
theorem test_decode_shft : value? (decode defaultOpmap 0b1001_011_001_010_000) = some (.shft 3 1 2) := by decide
/-- BEQ R5, #-2. -/
theorem test_decode_beq : value? (decode defaultOpmap 0b1010_101_11111110_0) = some (.beq 5 254) := by decide
/-- BNE #-2. -/
theorem test_decode_bne : value? (decode defaultOpmap 0b1011_000_11111110_0) = some (.bne 0 254) := by decide
/-- B #127. -/
theorem test_decode_b : value? (decode defaultOpmap 0b1100_01111111_0000) = some (.b 127) := by decide
/-- CALL #5. -/
theorem test_decode_call : value? (decode defaultOpmap 0b1101_00000101_0000) = some (.call 5) := by decide
/-- RET. -/
theorem test_decode_ret : value? (decode defaultOpmap 0b1110_000000000000) = some .ret := by decide
/-- HALT. -/
theorem test_decode_halt : value? (decode defaultOpmap 0b1111_000000000000) = some .halt := by decide

/-- One bit of the zero field set, format by format: `DecodeError` with the Word (R94). -/
theorem test_decode_illegal :
    ([0x0001, 0x1625, 0x5651, 0x5654, 0x9FFF, 0xA007, 0xC001, 0xC008, 0xDFFF, 0xE001, 0xE800, 0xF001, 0xFFFF] :
      List Word).all (fun w => decide (error? (decode defaultOpmap w) = some (.decodeError w))) = true := by decide

/-- All fields at their largest (R82). -/
theorem test_decode_extremes :
    value? (decode defaultOpmap 0x2FFF) = some (.load 7 7 63) ∧ value? (decode defaultOpmap 0x5FF8) = some (.add 7 7 7) ∧
    value? (decode defaultOpmap 0x0FFE) = some (.loadi 7 255) ∧ value? (decode defaultOpmap 0xCFF0) = some (.b 255) := by
  decide

/-- Under another `OPMAP` the same bits are another instruction (R85). -/
theorem test_decode_other_opmap :
    value? (decode #v[.HALT, .LUI, .LOAD, .STORE, .ADDI, .ADD, .SUB, .AND, .OR, .SHFT, .BEQ, .BNE, .B, .CALL, .RET, .LOADI]
      0xF756) = some (.loadi 3 171) := by decide

/-- The host's decoder on a table word. -/
theorem test_decodeTableWord :
    decodeTableWord 16 0x9650 = some (.shft 3 1 2) ∧ decodeTableWord 16 0x5651 = none := by decide

/-- The encode side masks immediates (spec/95_test_vectors.md 2.2). -/
theorem test_assemble_masks :
    (assemble defaultOpmap .LOADI [0, -1]).toOption = some 0x01FE ∧
    (assemble defaultOpmap .ADDI [1, 1, 32]).toOption = some 0x4260 ∧
    (assemble defaultOpmap .LOAD [1, 1, 40]).toOption = some 0x2268 ∧
    (assemble defaultOpmap .B [300]).toOption = some 0xC2C0 ∧
    (assemble defaultOpmap .BEQ [0, 200]).toOption = some 0xA190 ∧
    (assemble defaultOpmap .ADD [8, 0, 0]).toOption = none := by decide

/-- Offsets from labels (spec/95_test_vectors.md 2.2). -/
theorem test_labelOffset : labelOffset 3 2 = 0xFE ∧ labelOffset 1 4 = 2 ∧ labelOffset 0x0B 0x0D = 1 := by decide

/-! ### The ALU: rows of spec/95_test_vectors.md 2.3 -/

/-- ADD, flags before 1111. -/
theorem test_alu_add :
    aluRow .add 0xFFFF 0x0001 15 = some (0x0000, 0b0110) ∧ aluRow .add 0x7FFF 0x0001 15 = some (0x8000, 0b1001) ∧
    aluRow .add 0x8000 0x8000 15 = some (0x0000, 0b0111) ∧ aluRow .add 0x8000 0xFFFF 15 = some (0x7FFF, 0b0011) ∧
    aluRow .add 0xFFFF 0xFFFF 15 = some (0xFFFE, 0b1010) := by decide

/-- SUB, flags before 1111; the last four rows are those at `b = 0x8000` (conflict C8). -/
theorem test_alu_sub :
    aluRow .sub 0x0001 0x0001 15 = some (0x0000, 0b0110) ∧ aluRow .sub 0x0001 0x0002 15 = some (0xFFFF, 0b1000) ∧
    aluRow .sub 0x0005 0x0000 15 = some (0x0005, 0b0010) ∧ aluRow .sub 0x7FFF 0xFFFF 15 = some (0x8000, 0b1001) ∧
    aluRow .sub 0x0000 0x8000 15 = some (0x8000, 0b1000) ∧ aluRow .sub 0x8000 0x8000 15 = some (0x0000, 0b0111) ∧
    aluRow .sub 0xFFFF 0x8000 15 = some (0x7FFF, 0b0011) ∧ aluRow .sub 0x7FFF 0x8000 15 = some (0xFFFF, 0b1000) := by
  decide

/-- AND, flags before 1111. -/
theorem test_alu_and :
    aluRow .and 0xF0F0 0xFF00 15 = some (0xF000, 0b1000) ∧ aluRow .and 0x00FF 0xFF00 15 = some (0x0000, 0b0100) := by
  decide

/-- OR, flags before 1111. -/
theorem test_alu_or :
    aluRow .or 0xF0F0 0x0F0F 15 = some (0xFFFF, 0b1000) ∧ aluRow .or 0x00F0 0x000F 15 = some (0x00FF, 0b0000) := by
  decide

/-- SHFT: direction, amount 0, the last bit out, the bits of `b` that nothing reads. -/
theorem test_alu_shft :
    aluRow .shft 0x0001 0x8001 0 = some (0x0000, 0b0110) ∧ aluRow .shft 0x0003 0x000F 0 = some (0x8000, 0b1010) ∧
    aluRow .shft 0x8000 0x800F 0 = some (0x0001, 0b0000) ∧ aluRow .shft 0xABCD 0x0004 0 = some (0xBCD0, 0b1000) ∧
    aluRow .shft 0x1234 0x0000 0b0011 = some (0x1234, 0b0010) ∧ aluRow .shft 0x1234 0x0000 0b1101 = some (0x1234, 0) ∧
    aluRow .shft 0x8000 0x7FF0 0b1111 = some (0x8000, 0b1010) ∧ aluRow .shft 0x00F0 0xFFFF 0 = some (0, 0b0100) := by
  decide

/-- Control codes 5, 6, 7 (R151). -/
theorem test_alu_control_error :
    ([5, 6, 7] : List (BitVec 3)).all
      (fun k => decide (error? (alu defaultAluCtrlMap k 1 2 (nzcv 0)) = some (.aluControlError k))) = true := by decide

/-! ### One tick: rows of spec/95_test_vectors.md 2.4 to 2.7 -/

/-- LOADI R3, #0xAB: the upper byte is cleared, the flags stay. -/
theorem test_step_loadi :
    (tick 0 0x0756 (flagged 0b1011 (regs 0 0 0 0xFFFF))).map (fun t => (t.getReg 3, t.pc, t.flags.toNat)) =
      some (0x00AB, 0x0001, 0b1011) := by decide

/-- LUI R3, #0x12: the lower byte is kept. -/
theorem test_step_lui :
    (tick 0 0x1624 (flagged 0b1011 (regs 0 0 0 0xABCD))).map (fun t => (t.getReg 3, t.flags.toNat)) =
      some (0x12CD, 0b1011) := by decide

/-- LOAD R2, R1, #-1 at the highest ordinary address. -/
theorem test_step_load :
    (tick 0 0x247F { regs 0 0xFF00 0 0 with dmem := [(0xFEFF, 0x0007)] }).map (fun t => t.getReg 2) = some 0x0007 := by
  decide

/-- LOAD: its two errors, at the edges of their ranges. -/
theorem test_step_load_errors :
    tickFault 0 0x247F (regs 0 0 0 0) = some (.operandRangeError (-1) 0) ∧
    tickFault 0 0x2441 (regs 0 0xFFFF 0 0) = some (.operandRangeError 0x10000 0) ∧
    tickFault 0 0x2440 (regs 0 0xFF00 0 0) = some (.protectedRegionError 0xFF00 0) := by decide

/-- STORE R2, R1, #5. -/
theorem test_step_store :
    (tick 0 0x3445 (regs 0 0x0100 0xCAFE 0)).map (fun t => (t.dmem, t.pc)) = some ([(0x0105, 0xCAFE)], 0x0001) := by
  decide

/-- STORE: its two errors. -/
theorem test_step_store_errors :
    tickFault 0 0x3440 (regs 0 0xFFFF 1 0) = some (.protectedRegionError 0xFFFF 0) ∧
    tickFault 0 0x345F (regs 0 0xFFF0 1 0) = some (.operandRangeError 0x1000F 0) := by decide

/-- ADDI R1, R1, #-1 and ADDI R2, R1, #-32. -/
theorem test_step_addi :
    (tick 0 0x427F (regs 0 0x0001 0 0)).map (fun t => (t.getReg 1, t.flags.toNat)) = some (0x0000, 0b0110) ∧
    (tick 0 0x4460 (regs 0 0x8000 0 0)).map (fun t => (t.getReg 2, t.flags.toNat)) = some (0x7FE0, 0b0011) := by decide

/-- ADD R3, R1, R2. -/
theorem test_step_add :
    (tick 0 0x5650 (regs 0 0x7FFF 1 0)).map (fun t => (t.getReg 3, t.flags.toNat)) = some (0x8000, 0b1001) := by decide

/-- SUB R3, R1, R2: the order of the operands. -/
theorem test_step_sub :
    (tick 0 0x6650 (regs 0 1 2 0)).map (fun t => (t.getReg 3, t.flags.toNat)) = some (0xFFFF, 0b1000) := by decide

/-- AND R3, R1, R2. -/
theorem test_step_and :
    (tick 0 0x7650 (flagged 0b0011 (regs 0 0xF0F0 0xFF00 0))).map (fun t => (t.getReg 3, t.flags.toNat)) =
      some (0xF000, 0b1000) := by decide

/-- OR R3, R1, R2. -/
theorem test_step_or :
    (tick 0 0x8650 (flagged 0b0011 (regs 0 0xF0F0 0x0F0F 0))).map (fun t => (t.getReg 3, t.flags.toNat)) =
      some (0xFFFF, 0b1000) := by decide

/-- SHFT R1, R1, R1: the operands are read before the result is written. -/
theorem test_step_shft :
    (tick 0 0x9248 (regs 0 0x8003 0 0)).map (fun t => (t.getReg 1, t.flags.toNat)) = some (0x1000, 0b0000) := by decide

/-- BEQ #3 at 0x0010, taken and not taken. -/
theorem test_step_beq :
    (tick 0x0010 0xA006 (flagged 0b0100 (regs 0 0 0 0))).map (fun t => t.pc) = some 0x0014 ∧
    (tick 0x0010 0xA006 (flagged 0 (regs 0 0 0 0))).map (fun t => t.pc) = some 0x0011 := by decide

/-- BNE #-2 at 0x0003, taken and not taken. -/
theorem test_step_bne :
    (tick 0x0003 0xB1FC (flagged 0 (regs 0 0 0 0))).map (fun t => t.pc) = some 0x0002 ∧
    (tick 0x0003 0xB1FC (flagged 0b0100 (regs 0 0 0 0))).map (fun t => t.pc) = some 0x0004 := by decide

/-- B #-128 at 0x0100, and the lowest target. -/
theorem test_step_b :
    (tick 0x0100 0xC800 State.reset).map (fun t => t.pc) = some 0x0081 ∧
    (tick 0x0000 0xCFF0 State.reset).map (fun t => t.pc) = some 0x0000 := by decide

/-- B: a target out of range at either end. -/
theorem test_step_b_errors :
    tickFault 0x0000 0xCFE0 State.reset = some (.operandRangeError (-1) 0x0000) ∧
    tickFault 0xFFF0 0xC7F0 State.reset = some (.operandRangeError 0x10070 0xFFF0) := by decide

/-- CALL #-16 at 0x0040 into the last free slot. -/
theorem test_step_call :
    (tick 0x0040 0xDF00 { State.reset with sp := 0xFF00 }).map (fun t => (t.dmem, t.sp, t.pc)) =
      some ([(0xFF00, 0x0041)], 0xFEFF, 0x0031) := by decide

/-- CALL with the stack full. -/
theorem test_step_call_overflow :
    tickFault 0x0040 0xD010 { State.reset with sp := 0xFEFF } = some (.operandRangeError 0xFEFF 0x0040) := by decide

/-- RET. -/
theorem test_step_ret :
    (tick 0x0015 0xE000 { State.reset with sp := 0xFFFE, dmem := [(0xFFFF, 0x0011)] }).map
      (fun t => (t.pc, t.sp, t.dmem)) = some (0x0011, 0xFFFF, [(0xFFFF, 0x0011)]) := by decide

/-- RET with no call outstanding, and below the region. -/
theorem test_step_ret_errors :
    tickFault 0x0015 0xE000 State.reset = some (.operandRangeError 0x10000 0x0015) ∧
    tickFault 0x0015 0xE000 { State.reset with sp := 0xFEFE } = some (.operandRangeError 0xFEFF 0x0015) := by decide

/-- HALT. -/
theorem test_step_halt :
    (tick 0x0007 0xF000 (flagged 0b1011 State.reset)).map (fun t => (t.halted, t.pc, t.flags.toNat, t.tickResult)) =
      some (true, 0x0008, 0b1011, false) := by decide

/-- A malformed Word, and the fetch check before it (R204). -/
theorem test_step_decode_error :
    tickFault 0x0007 0xE010 State.reset = some (.decodeError 0xE010 0x0007) ∧
    tickFault 0xFFFF 0xFFFF State.reset = some (.operandRangeError 0x10000 0xFFFF) := by decide

/-- A tick from an address nothing was loaded at: `ir = 0x0000`, LOADI R0, #0. -/
theorem test_step_unloaded :
    (next? (step { regs 0x1111 0 0 0 with pc := 0x0100 })).map (fun t => (t.getReg 0, t.ir, t.pc)) =
      some (0, 0, 0x0101) := by decide

/-- The latch after a tick holds the record of the Word fetched (R32, R84). -/
theorem test_step_latch :
    (tick 0 0x0756 State.reset).map (fun t => t.dec) = some (some ⟨0, .LOADI, .I8, .loadi 3 171, 0, 0x0756⟩) := by decide

/-- Writing 0x0000 removes the entry, so that equal memories are equal data. -/
theorem test_memory_canonical :
    Memory.write [(2, 5), (7, 6)] 2 0 = [(7, 6)] ∧ Memory.write [(2, 5), (7, 6)] 4 9 = [(2, 5), (4, 9), (7, 6)] ∧
    Memory.wf [(2, 5), (4, 9), (7, 6)] = true ∧ Memory.wf [(7, 6), (2, 5)] = false ∧ Memory.wf [(2, 0)] = false ∧
    Memory.wf [(65536, 1)] = false := by decide

/-! ### Witnesses: each statement's hypotheses are met, each clause at a boundary -/

/-- The state one tick later, for a tick that completes. -/
def go (s : State) : State := (next? (step s)).getD s

/-- The instruction the next tick decodes. -/
def decoded? (s : State) : Option Instr :=
  match fetchDecode s with
  | .ok (i, _) => some i
  | .error _ => none

/-- The state its rule runs in. -/
def inner (s : State) : State :=
  match fetchDecode s with
  | .ok (_, s') => s'
  | .error _ => s

/-- An outcome that has a next state is that state. -/
theorem eq_next_of_isSome {o : Host.Outcome State Fault Refusal} (h : (next? o).isSome = true) (d : State) :
    o = .next ((next? o).getD d) := by
  cases o with
  | next t => rfl
  | fault f => cases h
  | refused r => cases h

/-- A tick that completes leads to `go`. -/
theorem step_go {s : State} (h : (next? (step s)).isSome = true) : step s = .next (go s) := eq_next_of_isSome h s

/-- What `decoded?` names is what the next tick executes. -/
theorem executes_inner {s : State} {i : Instr} (hh : s.halted = false) (h : decoded? s = some i) :
    Executes s i (inner s) := by
  refine ⟨hh, ?_⟩
  unfold decoded? at h
  unfold inner
  split at h
  · next j s' hf => rw [hf, Option.some.inj h]
  · cases h

/-- A property of every instruction the next tick could execute, from the one it does. -/
theorem forall_executes {s : State} {P : Instr → State → Prop} {i : Instr} (h : decoded? s = some i)
    (hP : P i (inner s)) : ∀ j s', Executes s j s' → P j s' := by
  rintro j s' ⟨-, hf⟩
  unfold decoded? at h
  unfold inner at hP
  rw [hf] at h hP
  exact Option.some.inj h ▸ hP

/-- A state with a call outstanding, every flag set, and a Word in each kind of memory. -/
def busy : State :=
  { State.reset with
    x := #v[1, 0x00FE, 0xFF01, 3, 4, 5, 6, 0xFFFF]
    pc := 0x0010
    sp := 0xFFFE
    flags := nzcv 0b1011
    imem := [(0x0010, 0xE000)]
    dmem := [(0x0100, 0xBEEF), (0xFFFF, 0x0011)] }

/-- `busy` with the wrap of `PC_OVERFLOW`. -/
def wrapping : State := { busy with cfg := { defaultConfig with pcOverflow := .wrap } }

/-- ConstructionPlacesWhatTheLaunchGives, at the greatest length of `PROGRAM` and with an address assigned twice. -/
theorem witness_ConstructionPlaces :
    Launch.wf { defaultLaunch with program := List.replicate 65536 0xF000, dmemInit := [(3, 1), (3, 2)] } = true := by
  simp only [Launch.wf, List.length_replicate]
  decide

/-- ConstructionMeetsTheInvariant, with the smallest admitted stack region at the lowest place. -/
theorem witness_ConstructionMeetsTheInvariant :
    Config.wf { defaultConfig with stackLo := 1, stackHi := 1 } = true ∧
    ¬((nzcv 0b1011).n = true ∧ (nzcv 0b1011).z = true) ∧
    (value? (construct { defaultConfig with stackLo := 1, stackHi := 1 }
      { defaultLaunch with flagsInit := nzcv 0b1011, program := [0x0204, 0xF000] })).isSome = true := by decide

/-- EveryStepKeepsTheInvariant. -/
theorem witness_EveryStepKeepsTheInvariant : MachineInv busy ∧ ∃ t, step busy = .next t :=
  ⟨⟨by decide, by decide, by decide, by decide, by decide, by decide⟩, _, step_go (by decide)⟩

/-- HaltedCoreIgnoresTicks. -/
theorem witness_HaltedCoreIgnoresTicks : ({ busy with halted := true } : State).halted = true := rfl

/-- OnlyHaltStopsTheCore: a construction; a tick of a halted core; a HALT and another instruction of a running one. -/
theorem witness_OnlyHaltStopsTheCore :
    (∃ s, construct defaultConfig defaultLaunch = .ok s) ∧
    (∃ t, step { busy with halted := true } = .next t) ∧
    (∃ t, step (placed 0 0xF000 busy) = .next t ∧ ∃ s', Executes (placed 0 0xF000 busy) .halt s') ∧
    (∃ t, step busy = .next t ∧ ∃ s', Executes busy .ret s') :=
  ⟨⟨_, rfl⟩, ⟨_, rfl⟩, ⟨_, step_go (by decide), _, executes_inner rfl (by decide)⟩,
    ⟨_, step_go (by decide), _, executes_inner rfl (by decide)⟩⟩

/-- StepRunsTheFetchedInstruction: at the last address that can run, and at the top under the wrap. -/
theorem witness_StepRunsTheFetchedInstruction :
    ((placed 0xFFFE 0x5650 busy).halted = false ∧ (placed 0xFFFE 0x5650 busy).pc ≠ 0xFFFF ∧
      decode defaultOpmap (imemRead (placed 0xFFFE 0x5650 busy).imem 0xFFFE) = .ok (.add 3 1 2)) ∧
    ((placed 0xFFFF 0xF000 wrapping).cfg.pcOverflow = .wrap ∧
      decode defaultOpmap (imemRead (placed 0xFFFF 0xF000 wrapping).imem 0xFFFF) = .ok .halt) :=
  ⟨⟨rfl, by decide, rfl⟩, ⟨rfl, rfl⟩⟩

/-- FetchAndDecodeErrorsInOrder: the top of memory, and an illegal Word just below it. -/
theorem witness_FetchAndDecodeErrorsInOrder :
    (placed 0xFFFF 0xF000 busy).halted = false ∧ (placed 0xFFFF 0xF000 busy).cfg.pcOverflow = .fault ∧
    tickFault 0xFFFF 0xF000 busy = some (.operandRangeError 0x10000 0xFFFF) ∧
    (∀ i, decode defaultOpmap (imemRead (placed 0xFFFE 0xF001 busy).imem 0xFFFE) ≠ .ok i) ∧
    tickFault 0xFFFE 0xF001 busy = some (.decodeError 0xF001 0xFFFE) ∧
    tickFault 0xFFFF 0xF001 wrapping = some (.decodeError 0xF001 0xFFFF) :=
  by
  refine ⟨rfl, rfl, by decide, ?_, by decide, by decide⟩
  intro i h
  have : decode defaultOpmap (imemRead (placed 0xFFFE 0xF001 busy).imem 0xFFFE) = .error (.decodeError 0xF001) := rfl
  rw [this] at h
  cases h

/-- PlacedWordIsFetchedNext, over a Word that was there. -/
theorem witness_PlacedWordIsFetchedNext :
    busy.imem.wf = true ∧ busy.pc ≠ 0xFFFF ∧ decode busy.cfg.opmap (BitVec.ofNat 16 0x5650) = .ok (.add 3 1 2) :=
  ⟨by decide, by decide, rfl⟩

/-- NoRunChangesProgramOrParameters: a run that stores. -/
theorem witness_NoRunChangesProgramOrParameters : ∃ t, run 1 (placed 0 0x3445 (regs 0 0x0100 0xCAFE 0)) = .next t :=
  ⟨_, by rw [run_succ, step_go (by decide)]; rfl⟩

/-- InstructionMemoryIsWritableOnlyWhileLoading: the two ends of the space. -/
theorem witness_InstructionMemoryIsWritableOnlyWhileLoading :
    busy.imem.wf = true ∧ (value? (imemWrite .loading busy.imem 0 7)).isSome = true ∧
    (value? (imemWrite .loading busy.imem 0xFFFF 7)).isSome = true ∧
    error? (imemWrite .loading busy.imem 0x10000 7) = some (.operandRangeError 0x10000) := by decide

/-- IllegalWordsRaiseDecodeError: the highest bit of the widest zero field, a Word without a zero field, and a tick. -/
theorem witness_IllegalWordsRaiseDecodeError :
    zeroBitsSet (defaultOpmap.mnemonicOf 0xE) 0xE800 = true ∧ zeroBitsSet (defaultOpmap.mnemonicOf 2) 0x2FFF = false ∧
    zeroBitsSet (defaultOpmap.mnemonicOf 0xC) 0xC008 = true ∧ (placed 0xFFFE 0xE800 busy).halted = false ∧
    tickFault 0xFFFE 0xE800 busy = some (.decodeError 0xE800 0xFFFE) := by decide

/-- LegalWordsNumber23554 and DecodeInvertsEncode: an `OPMAP` that is not the default one. -/
theorem witness_opmap :
    Opmap.wf #v[.HALT, .LUI, .LOAD, .STORE, .ADDI, .ADD, .SUB, .AND, .OR, .SHFT, .BEQ, .BNE, .B, .CALL, .RET, .LOADI] =
      true := by decide

/-- DecodeInvertsEncode, second half: a legal Word. -/
theorem witness_DecodeInvertsEncode : decode defaultOpmap 0xABFC = .ok (.beq 5 254) := rfl

/-- InRangeOperandsSurviveEncoding: the two ends of each range. -/
theorem witness_InRangeOperandsSurviveEncoding :
    Opmap.wf defaultOpmap = true ∧ operandsInRange Mnemonic.LUI.format [0, 255] = true ∧
    operandsInRange Mnemonic.STORE.format [7, 0, -32] = true ∧ operandsInRange Mnemonic.ADDI.format [0, 7, 31] = true ∧
    operandsInRange Mnemonic.SHFT.format [0, 7, 7] = true ∧ operandsInRange Mnemonic.BNE.format [7, -128] = true ∧
    operandsInRange Mnemonic.CALL.format [127] = true ∧ operandsInRange Mnemonic.RET.format [] = true := by decide

/-- EncoderMasksAndPacksFields: each format, register indices at and beyond both ends. -/
theorem witness_EncoderMasksAndPacksFields :
    Mnemonic.BEQ.format = .BC ∧ Mnemonic.LOADI.format = .I8 ∧ Mnemonic.ADDI.format = .I6 ∧ Mnemonic.LOAD.format = .M ∧
    Mnemonic.OR.format = .R ∧ Mnemonic.B.format = .BU ∧ Mnemonic.HALT.format = .O ∧
    (assemble defaultOpmap .LOADI [7, 255]).toOption = some 0x0FFE ∧
    (assemble defaultOpmap .LOADI [8, 0]).toOption = none ∧ (assemble defaultOpmap .ADDI [0, -1, 0]).toOption = none ∧
    (assemble defaultOpmap .OR [0, 7, 8]).toOption = none := by decide

/-- LabelOffsetsReachTheirLabels: the two ends of the reach, and one past each. -/
theorem witness_LabelOffsetsReachTheirLabels :
    (0x0100 : Word) ≠ 0xFFFF ∧ value? (branchTarget defaultConfig 0x0101 (labelOffset 0x0100 0x0081)) = some 0x0081 ∧
    value? (branchTarget defaultConfig 0x0101 (labelOffset 0x0100 0x0180)) = some 0x0180 ∧
    value? (branchTarget defaultConfig 0x0101 (labelOffset 0x0100 0x0080)) = some 0x0180 ∧
    value? (branchTarget defaultConfig 0x0101 (labelOffset 0x0100 0x0181)) = some 0x0081 := by decide

/-- AluSetsNAndZFromTheResult, from operands beyond 16 bits. -/
theorem witness_AluSetsNAndZFromTheResult :
    alu defaultAluCtrlMap 4 (-1) 0x18000 (nzcv 15) = .ok (0xFFFF, nzcv 0b1010) := by rfl

/-- The ALU's own statements: an `ALU_CTRL_MAP` that is not the default one. -/
theorem witness_aluCtrl : AluCtrlMap.wf #v[.shft, .or, .and, .sub, .add] = true := by decide

/-- AluControlErrorOnlyFromIllegalCodes: the codes on either side of the bound. -/
theorem witness_AluControlErrorOnlyFromIllegalCodes :
    5 ≤ (5 : BitVec 3).toNat ∧ (4 : BitVec 3).toNat < 5 ∧ busy.cfg.wf = true := by decide

/-- LoadReadsOrdinaryDataMemory: the last address below the stack region, then the two ends of the space. -/
theorem witness_LoadReadsOrdinaryDataMemory :
    ((0xFEFF : Int) = ((regs 0 0xFF00 0 0).getReg 1).toNat + (63 : BitVec 6).toInt ∧ (0 : Int) ≤ 0xFEFF ∧
      (0xFEFF : Int) ≤ 0xFFFF ∧ ¬(((regs 0 0xFF00 0 0).cfg.stackLo.toNat : Int) ≤ 0xFEFF ∧
        (0xFEFF : Int) ≤ (regs 0 0xFF00 0 0).cfg.stackHi.toNat)) ∧
    (tick 0 0x2461 { regs 0 0x001F 0 0 with dmem := [(0, 9)] }).map (fun t => t.getReg 2) = some 9 ∧
    (tick 0 0x2440 { regs 0 0xFFFF 0 0 with dmem := [(0xFFFF, 8)], cfg := { defaultConfig with stackHi := 0xFFFE } }).map
      (fun t => t.getReg 2) = some 8 := by decide

/-- StoreWritesOrdinaryDataMemory: both values of `STORE_BASE_FIELD`, at the last address below the region. -/
theorem witness_StoreWritesOrdinaryDataMemory :
    storeAddress 2 1 63 (regs 0 0xFF00 7 0) = 0xFEFF ∧
    storeAddress 1 2 63 { regs 0 0xFF00 7 0 with cfg := { defaultConfig with storeBase := .f1 } } = 0xFEFF ∧
    (regs 0 0xFF00 7 0).dmem.wf = true ∧ inStackRegion defaultConfig 0xFEFF = false ∧
    (tick 0 0x347F (regs 0 0xFF00 7 0)).map (fun t => t.dmem) = some [(0xFEFF, 7)] ∧
    (tick 0 0x32BF { regs 0 0xFF00 7 0 with cfg := { defaultConfig with storeBase := .f1 } }).map (fun t => t.dmem) =
      some [(0xFEFF, 7)] := by decide

/-- LoadAndStoreAddressErrors: one past each bound, for both instructions. -/
theorem witness_LoadAndStoreAddressErrors :
    ((-1 : Int) = ((regs 0 0 0 0).getReg 1).toNat + (63 : BitVec 6).toInt) ∧
    storeAddress 2 1 1 (regs 0 0xFFFF 0 0) = 0x10000 ∧
    ((0xFF00 : Int) = ((regs 0 0xFF00 0 0).getReg 1).toNat + (0 : BitVec 6).toInt) ∧
    storeAddress 2 1 0 (regs 0 0xFFFF 0 0) = 0xFFFF ∧
    inStackRegion defaultConfig 0xFF00 = true ∧ inStackRegion defaultConfig 0xFFFF = true := by decide

/-- OrdinaryWritePathChecksThenWrites: each clause at its bounds. -/
theorem witness_OrdinaryWritePathChecksThenWrites :
    busy.dmem.wf = true ∧ error? (memWrite defaultConfig busy.dmem (-1) 5) = some (.operandRangeError (-1)) ∧
    error? (memWrite defaultConfig busy.dmem 0x10000 5) = some (.operandRangeError 0x10000) ∧
    error? (memWrite defaultConfig busy.dmem 0xFF00 5) = some (.protectedRegionError 0xFF00) ∧
    error? (memWrite defaultConfig busy.dmem 0xFFFF 5) = some (.protectedRegionError 0xFFFF) ∧
    (value? (memWrite defaultConfig busy.dmem 0 5)).isSome = true ∧
    (value? (memWrite defaultConfig busy.dmem 0xFEFF 5)).isSome = true := by decide

/-- StackPathReachesOnlyTheStackRegion: each clause at its bounds. -/
theorem witness_StackPathReachesOnlyTheStackRegion :
    busy.dmem.wf = true ∧ error? (stackRead defaultConfig busy.dmem 0xFEFF) = some (.operandRangeError 0xFEFF) ∧
    error? (stackWrite defaultConfig busy.dmem 0x10000 5) = some (.operandRangeError 0x10000) ∧
    (value? (stackWrite defaultConfig busy.dmem 0xFF00 5)).isSome = true ∧
    value? (stackRead defaultConfig busy.dmem 0xFFFF) = some 0x0011 := by decide

/-- CanonicalMemoriesAreDeterminedByTheirReads: one memory, written in two orders. -/
theorem witness_CanonicalMemoriesAreDeterminedByTheirReads :
    (Memory.write (Memory.write [] 3 1) 9 2).wf = true ∧ (Memory.write (Memory.write [] 9 2) 3 1).wf = true ∧
    Memory.write (Memory.write [] 3 1) 9 2 = Memory.write (Memory.write [] 9 2) 3 1 := by decide

/-- `STORE R2, R1, #5`, `LOADI R0, #0`, `LOAD R3, R1, #5`. -/
def storeThenLoad : State := { regs 0 0x0100 0xCAFE 0 with imem := [(0, 0x3445), (2, 0x2645)] }

/-- LoadReturnsTheMostRecentStore, with one tick between. -/
theorem witness_LoadReturnsTheMostRecentStore :
    storeThenLoad.dmem.wf = true ∧ Executes storeThenLoad (.store 2 1 5) (inner storeThenLoad) ∧
    step storeThenLoad = .next (go storeThenLoad) ∧
    RunWithin (fun w => ∀ i w', Executes w i w' → addressStored i w' ≠ some (storeAddress 2 1 5 (inner storeThenLoad))) 1
      (go storeThenLoad) (go (go storeThenLoad)) ∧
    Executes (go (go storeThenLoad)) (.load 3 1 5) (inner (go (go storeThenLoad))) ∧
    effectiveAddress ((inner (go (go storeThenLoad))).getReg 1) 5 = storeAddress 2 1 5 (inner storeThenLoad) :=
  ⟨by decide, executes_inner rfl (by decide), step_go (by decide),
    ⟨forall_executes (i := .loadi 0 0) (by decide) (by decide), _, step_go (by decide),
      forall_executes (i := .load 3 1 5) (by decide) (by decide), rfl⟩,
    executes_inner (by decide) (by decide), by decide⟩

/-- The ALU instructions' statements: a state with an admitted configuration, and a register both source and
destination. -/
theorem witness_alu_instructions :
    busy.cfg.wf = true ∧ (tick 0 0x4248 busy).isSome = true ∧ (tick 0 0x5248 busy).isSome = true ∧
    (tick 0 0x6248 busy).isSome = true ∧ (tick 0 0x7248 busy).isSome = true ∧ (tick 0 0x8248 busy).isSome = true ∧
    (tick 0 0x9248 busy).isSome = true := by decide

/-- TakenBranchesGoToTheirTarget: the lowest and the highest target, and a target that wraps. -/
theorem witness_TakenBranchesGoToTheirTarget :
    (flagged 0b0100 busy).flags.z = true ∧ busy.flags.z = false ∧
    (tick 0x007F 0xA100 (flagged 0b0100 busy)).map (fun t => t.pc) = some 0x0000 ∧
    (tick 0xFF80 0xB0FC busy).map (fun t => t.pc) = some 0xFFFF ∧
    (tick 0x0000 0xC800 wrapping).map (fun t => t.pc) = some 0xFF81 := by decide

/-- UntakenBranchesFallThrough: both values of `Z`, and a target that would be out of range. -/
theorem witness_UntakenBranchesFallThrough :
    (tick 0x0000 0xA1FA busy).map (fun t => t.pc) = some 0x0001 ∧
    (tick 0x0000 0xB1FA (flagged 0b0100 busy)).map (fun t => t.pc) = some 0x0001 := by decide

/-- BranchTargetErrors: one below and one above the space. -/
theorem witness_BranchTargetErrors :
    busy.cfg.pcOverflow = .fault ∧ tickFault 0x0000 0xA1FC (flagged 0b0100 busy) = some (.operandRangeError (-1) 0) ∧
    tickFault 0xFF80 0xB0FE busy = some (.operandRangeError 0x10000 0xFF80) := by decide

/-- CallPushesAndJumps: the highest and the lowest slot, targets at both ends, and a target that wraps. -/
theorem witness_CallPushesAndJumps :
    busy.cfg.wf = true ∧ busy.dmem.wf = true ∧
    (tick 0x007F 0xD800 { busy with sp := 0xFFFF }).map (fun t => (t.pc, t.sp)) = some (0x0000, 0xFFFE) ∧
    (tick 0xFF80 0xD7E0 { busy with sp := 0xFF00 }).map (fun t => (t.pc, t.sp)) = some (0xFFFF, 0xFEFF) ∧
    (tick 0x0000 0xD800 wrapping).map (fun t => (t.pc, t.sp)) = some (0xFF81, 0xFFFD) := by decide

/-- RetPopsTheReturnAddress: the highest and the lowest slot. -/
theorem witness_RetPopsTheReturnAddress :
    (tick 0 0xE000 { busy with sp := 0xFFFE }).map (fun t => (t.pc, t.sp)) = some (0x0011, 0xFFFF) ∧
    (tick 0 0xE000 { busy with sp := 0xFEFF }).map (fun t => (t.pc, t.sp)) = some (0x0000, 0xFF00) := by decide

/-- CallAndRetErrors: `sp` one outside the region at each end, and a target out of range with a slot free. -/
theorem witness_CallAndRetErrors :
    tickFault 0 0xD000 { busy with sp := 0xFEFF } = some (.operandRangeError 0xFEFF 0) ∧
    tickFault 0 0xD000 { busy with sp := 0xFFFF, cfg := { defaultConfig with stackHi := 0xFFFE } } =
      some (.operandRangeError 0xFFFF 0) ∧
    tickFault 0 0xDFE0 { busy with sp := 0xFF00 } = some (.operandRangeError (-1) 0) ∧
    tickFault 0 0xE000 { busy with sp := 0xFEFE } = some (.operandRangeError 0xFEFF 0) ∧
    tickFault 0 0xE000 { busy with sp := 0xFFFF } = some (.operandRangeError 0x10000 0) := by decide

/-- RetUndoesCall: `u` is the state the CALL left. -/
theorem witness_RetUndoesCall :
    busy.cfg.wf = true ∧ busy.dmem.wf = true ∧ ∃ t, exec (.call 5) busy = .next t :=
  ⟨by decide, by decide, _, eq_next_of_isSome (by decide) busy⟩

/-- `CALL #1` at 0 and at 2, `RET` at 4 and at 3. -/
def nestedCalls : State := { State.reset with imem := [(0, 0xD010), (2, 0xD010), (3, 0xE000), (4, 0xE000)] }

/-- NestedCallsReturnToTheirCaller: a call and its return inside the outer call. -/
theorem witness_NestedCallsReturnToTheirCaller :
    nestedCalls.cfg.wf = true ∧ nestedCalls.dmem.wf = true ∧ Executes nestedCalls (.call 1) (inner nestedCalls) ∧
    step nestedCalls = .next (go nestedCalls) ∧
    RunWithin (fun w => w.sp.toNat < nestedCalls.sp.toNat) 2 (go nestedCalls) (go (go (go nestedCalls))) ∧
    Executes (go (go (go nestedCalls))) .ret (inner (go (go (go nestedCalls)))) ∧
    (go (go (go nestedCalls))).sp.toNat + 1 = nestedCalls.sp.toNat :=
  ⟨by decide, by decide, executes_inner rfl (by decide), step_go (by decide),
    ⟨by decide, _, step_go (by decide), by decide, _, step_go (by decide), by decide, rfl⟩,
    executes_inner (by decide) (by decide), by decide⟩

/-- SideEffectsAreConfined: one instruction of each kind completes. -/
theorem witness_SideEffectsAreConfined :
    (∃ s', Executes busy .ret s') ∧ (∃ t, exec (.shft 1 2 3) busy = .next t) ∧
    (∃ t, exec (.store 2 1 5) busy = .next t) ∧ (∃ t, exec (.call 5) busy = .next t) ∧ (∃ t, exec .ret busy = .next t) ∧
    (∃ t, exec (.beq 0 3) busy = .next t) ∧ (∃ t, exec (.b 3) busy = .next t) ∧ ∃ t, exec .halt busy = .next t :=
  ⟨⟨_, executes_inner rfl (by decide)⟩, ⟨_, eq_next_of_isSome (by decide) busy⟩, ⟨_, eq_next_of_isSome (by decide) busy⟩,
    ⟨_, eq_next_of_isSome (by decide) busy⟩, ⟨_, eq_next_of_isSome (by decide) busy⟩,
    ⟨_, eq_next_of_isSome (by decide) busy⟩, ⟨_, eq_next_of_isSome (by decide) busy⟩,
    ⟨_, eq_next_of_isSome (by decide) busy⟩⟩

/-- OnlyCallWritesTheStackRegion: a tick that changes the lowest Word of the region, and one that changes the Word below
it. -/
theorem witness_OnlyCallWritesTheStackRegion :
    (tick 0 0xD000 { busy with sp := 0xFF00 }).map (fun t => (t.dmem.read 0xFF00, busy.dmem.read 0xFF00)) = some (1, 0) ∧
    (tick 0 0x347F (regs 0 0xFF00 7 0)).map (fun t => t.dmem.read 0xFEFF) = some 7 := by decide

/-- FlagsComeFromTheLastAluInstruction: a tick that changes the flags, and a SHFT by 0 that keeps `C`. -/
theorem witness_FlagsComeFromTheLastAluInstruction :
    usesAlu Mnemonic.SHFT = true ∧ (tick 0 0x5650 busy).map (fun t => decide (t.flags = busy.flags)) = some false ∧
    (tick 0 0x9240 (flagged 0b0010 (regs 0 5 0 0))).map (fun t => t.flags.c) = some true ∧
    (tick 0 0x9240 (flagged 0 (regs 0 5 0 0))).map (fun t => t.flags.c) = some false := by decide

/-- UnreadRegistersHaveNoInfluence: a register not read, and one not read but overwritten. -/
theorem witness_UnreadRegistersHaveNoInfluence : (4 : Reg) ∉ regsRead (.add 3 1 2) ∧ (3 : Reg) ∉ regsRead (.add 3 1 2) := by
  decide

/-- UnreadStackPointerAndFlagsHaveNoInfluence: one instruction of each clause. -/
theorem witness_UnreadStackPointerAndFlagsHaveNoInfluence :
    (Instr.beq 0 3).mnemonic ≠ .CALL ∧ (Instr.beq 0 3).mnemonic ≠ .RET ∧ (Instr.call 3).mnemonic.format ≠ .BC ∧
    (Instr.call 3).mnemonic ≠ .SHFT := by decide

/-- OnlyTheListedErrorsAreRaised: an error of each constructor that has one, one past a bound, in an admitted
configuration; the same target under the wrap is none. -/
theorem witness_OnlyTheListedErrorsAreRaised :
    busy.cfg.wf = true ∧ fault? (exec (.load 2 1 0) (regs 0 0xFF00 0 0)) = some (.protectedRegionError 0xFF00 0xFFFF) ∧
    fault? (exec (.load 2 1 1) (regs 0 0xFFFF 0 0)) = some (.operandRangeError 0x10000 0xFFFF) ∧
    fault? (exec (.store 2 1 63) (regs 0 0 0 0)) = some (.operandRangeError (-1) 0xFFFF) ∧
    fault? (exec (.beq 0 254) (flagged 0b0100 { busy with pc := 1 })) = some (.operandRangeError (-1) 0) ∧
    fault? (exec (.bne 0 127) { busy with pc := 0xFF81 }) = some (.operandRangeError 0x10000 0xFF80) ∧
    fault? (exec (.b 254) { busy with pc := 1 }) = some (.operandRangeError (-1) 0) ∧
    fault? (exec (.b 254) { wrapping with pc := 1 }) = none ∧
    fault? (exec (.call 1) { busy with sp := 0xFEFF, pc := 1 }) = some (.operandRangeError 0xFEFF 0) ∧
    fault? (exec (.call 254) { busy with sp := 0xFF00, pc := 1 }) = some (.operandRangeError (-1) 0) ∧
    fault? (exec .ret { busy with sp := 0xFFFF, pc := 1 }) = some (.operandRangeError 0x10000 0) := by decide

/-- OnlyTheListedErrorsAreRaised: the listed faults themselves, of a CALL whose slot is free, of a LOAD, and of the steps
before execute. -/
theorem witness_ListedFault :
    ListedFault (.call 254) { busy with sp := 0xFF00, pc := 1 } (.operandRangeError (-1) 0) ∧
    ListedFault (.load 2 1 0) (regs 0 0xFF00 0 0) (.protectedRegionError 0xFF00 0xFFFF) ∧
    FetchDecodeFault (placed 0xFFFF 0xF000 busy) (.operandRangeError 0x10000 0xFFFF) ∧
    FetchDecodeFault (placed 0xFFFE 0xE800 busy) (.decodeError 0xE800 0xFFFE) :=
  ⟨.inr ⟨by decide, rfl, .inl (by decide), rfl⟩, .inr ⟨rfl, by decide, by decide⟩, .inl ⟨rfl, rfl, rfl⟩,
    .inr ⟨.inl (by decide), rfl, rfl⟩⟩

/-- ErrorCodesAreTheNumbersOfTheList: a tick that reports each code (spec/95_test_vectors.md 2.4, 2.6 and P5). -/
theorem witness_ErrorCodes :
    busy.cfg.wf = true ∧ (tickFault 0x0007 0xE010 State.reset).map Fault.code = some 1 ∧
    (tickFault 0x0015 0xE000 State.reset).map Fault.code = some 2 ∧
    (tickFault 0x0003 0x3440 (regs 0 0xFFFF 7 0)).map Fault.code = some 3 := by decide

/-- RegisterFilePortsCheckTheirIndex: both ends and one past each. -/
theorem witness_RegisterFilePortsCheckTheirIndex :
    value? (regFileRead busy.x 0) = some 1 ∧ value? (regFileRead busy.x 7) = some 0xFFFF ∧
    (value? (regFileRead busy.x 8)) = none ∧ (value? (regFileWrite busy.x (-1) 5)) = none ∧
    (value? (regFileWrite busy.x 7 5)).map (fun y => (y[7], y[6])) = some (5, 6) := by decide

/-- UnloadedMemoryRunsLoadiToTheTop: from reset, where nothing is loaded, and from the top itself. -/
theorem witness_UnloadedMemoryRunsLoadiToTheTop :
    (State.reset.halted = false ∧ State.reset.cfg.opmap = defaultOpmap ∧ ∀ a, 0 ≤ a → State.reset.imem.read a = 0) ∧
    tickFault 0xFFFF 0 State.reset = some (.operandRangeError 0x10000 0xFFFF) :=
  ⟨⟨rfl, rfl, fun _ _ => rfl⟩, by decide⟩

end Sys2Proof.Tests
end

section
/-! PROOFS. The run state of R33: what each part of a tick does to `halted`, and the obligation made of it. -/

namespace Sys2Proof.Machine

/-- A raised error is no next state (R206). -/
theorem raise_ne_next (s t : State) (e : CoreError) : raise s e ≠ .next t := nofun

/-- A constructed machine is running (R33, R36). -/
theorem construct_halted {c : Config} {l : Launch} {s : State} (h : construct c l = .ok s) : s.halted = false := by
  unfold construct at h
  split at h
  · exact Except.ok.inj h ▸ rfl
  · cases h

/-- Fetch and decode keep the run state (R122, R123). -/
theorem fetchDecode_halted {s s' : State} {i : Instr} (h : fetchDecode s = .ok (i, s')) : s'.halted = s.halted := by
  obtain ⟨seq, -, -, rfl⟩ := fetchDecode_ok h
  rfl

/-- An ALU instruction keeps the run state (R125). -/
theorem aluToReg_halted {op : AluOp} {rd : Reg} {a b : Word} {s t : State} (h : aluToReg op rd a b s = .next t) :
    t.halted = s.halted := by
  obtain ⟨r, f, e⟩ | ⟨e, he⟩ := aluToReg_cases op rd a b s
  · exact Host.Outcome.next.inj (e.symm.trans h) ▸ rfl
  · exact absurd (he.symm.trans h) (raise_ne_next s t e)

/-- A relative jump keeps the run state (R190). -/
theorem jump_halted {offset8 : BitVec 8} {s t : State} (h : jump offset8 s = .next t) : t.halted = s.halted := by
  obtain ⟨a, -, e⟩ | ⟨e, -, he⟩ := jump_cases offset8 s
  · exact Host.Outcome.next.inj (e.symm.trans h) ▸ rfl
  · exact absurd (he.symm.trans h) (raise_ne_next s t e)

/-- LOAD keeps the run state (R173). -/
theorem execLoad_halted {f1 f2 : Reg} {addr6 : BitVec 6} {s t : State} (h : execLoad f1 f2 addr6 s = .next t) :
    t.halted = s.halted := by
  unfold execLoad at h
  split at h
  · exact Host.Outcome.next.inj h ▸ rfl
  · exact absurd h (raise_ne_next s t _)

/-- STORE keeps the run state (R174). -/
theorem execStore_halted {f1 f2 : Reg} {addr6 : BitVec 6} {s t : State} (h : execStore f1 f2 addr6 s = .next t) :
    t.halted = s.halted := by
  unfold execStore at h
  split at h
  · exact Host.Outcome.next.inj h ▸ rfl
  · exact absurd h (raise_ne_next s t _)

/-- BEQ keeps the run state, taken or not (R191). -/
theorem execBeq_halted {ra : Reg} {offset8 : BitVec 8} {s t : State} (h : execBeq ra offset8 s = .next t) :
    t.halted = s.halted := by
  unfold execBeq at h
  split at h
  · exact jump_halted h
  · exact Host.Outcome.next.inj h ▸ rfl

/-- BNE keeps the run state, taken or not (R192). -/
theorem execBne_halted {ra : Reg} {offset8 : BitVec 8} {s t : State} (h : execBne ra offset8 s = .next t) :
    t.halted = s.halted := by
  unfold execBne at h
  split at h
  · exact Host.Outcome.next.inj h ▸ rfl
  · exact jump_halted h

/-- CALL keeps the run state (R193). -/
theorem execCall_halted {offset8 : BitVec 8} {s t : State} (h : execCall offset8 s = .next t) :
    t.halted = s.halted := by
  unfold execCall at h
  split at h
  · exact absurd h (raise_ne_next s t _)
  · split at h
    · exact absurd h (raise_ne_next s t _)
    · exact Host.Outcome.next.inj h ▸ rfl

/-- RET keeps the run state (R194). -/
theorem execRet_halted {s t : State} (h : execRet s = .next t) : t.halted = s.halted := by
  unfold execRet at h
  split at h
  · exact absurd h (raise_ne_next s t _)
  · exact Host.Outcome.next.inj h ▸ rfl

/-- HALT halts (R195). -/
theorem exec_halt_halted {s t : State} (h : exec .halt s = .next t) : t.halted = true :=
  Host.Outcome.next.inj h ▸ s.halt_halted

/-- Every instruction but HALT keeps the run state (R33). -/
theorem exec_halted_of_ne_halt {i : Instr} {s t : State} (hi : i ≠ .halt) (h : exec i s = .next t) :
    t.halted = s.halted := by
  cases i with
  | loadi => exact Host.Outcome.next.inj h ▸ rfl
  | lui => exact Host.Outcome.next.inj h ▸ rfl
  | load => exact execLoad_halted h
  | store => exact execStore_halted h
  | addi => exact aluToReg_halted h
  | add => exact aluToReg_halted h
  | sub => exact aluToReg_halted h
  | and => exact aluToReg_halted h
  | or => exact aluToReg_halted h
  | shft => exact aluToReg_halted h
  | beq ra => exact execBeq_halted (ra := ra) h
  | bne ra => exact execBne_halted (ra := ra) h
  | b => exact jump_halted h
  | call => exact execCall_halted h
  | ret => exact execRet_halted h
  | halt => exact absurd rfl hi

/-- A completed instruction leaves a running core halted exactly when it is HALT (R33). -/
theorem exec_halted_iff {i : Instr} {s t : State} (hs : s.halted = false) (h : exec i s = .next t) :
    t.halted = true ↔ i = .halt := by
  constructor
  · intro ht
    by_contra hi
    rw [exec_halted_of_ne_halt hi h, hs] at ht
    cases ht
  · rintro rfl
    exact exec_halt_halted h

/-- A running core executes the instruction that fetch and decode answer, and no other (R122, R123). -/
theorem exists_executes_iff {s s' : State} {i j : Instr} (hs : s.halted = false) (h : fetchDecode s = .ok (i, s')) :
    (∃ s'', Executes s j s'') ↔ i = j := by
  constructor
  · rintro ⟨s'', -, h'⟩
    exact congrArg Prod.fst (Except.ok.inj (h.symm.trans h'))
  · rintro rfl
    exact ⟨s', hs, h⟩

/-- A tick never clears the halted state (R33, R121). -/
theorem step_keeps_halted {s t : State} (hs : s.halted = true) (h : step s = .next t) : t.halted = true :=
  Host.Outcome.next.inj ((step_of_halted hs).symm.trans h) ▸ hs

/-- A completed tick of a running core leaves it halted exactly when it executed HALT (R33). -/
theorem step_halted_iff {s t : State} (hs : s.halted = false) (h : step s = .next t) :
    t.halted = true ↔ ∃ s', Executes s .halt s' := by
  obtain ⟨hs', -⟩ | ⟨-, i, s', hf, hx⟩ := step_next h
  · rw [hs] at hs'
    cases hs'
  · exact (exec_halted_iff ((fetchDecode_halted hf).trans hs) hx).trans (exists_executes_iff hs hf).symm

/-- Settles O7: construction, the halted core and the running core, each by its own lemma. -/
theorem onlyHaltStopsTheCore : Obligations.OnlyHaltStopsTheCore :=
  ⟨fun _ _ _ => construct_halted,
    fun _ _ h => ⟨fun hs => step_keeps_halted hs h, fun hs => step_halted_iff hs h⟩⟩

end Sys2Proof.Machine
end

section
/-! PROOFS. The memory chapter: what an instruction that completes has done, from which no run changes instruction memory or
a parameter (R67), and the ordinary write path, branch by branch (R57). -/

namespace Sys2Proof.Machine

/-! ### What an instruction that completes has done -/

/-- All that a relative jump can do when it answers a state (R190). -/
theorem jump_inv {offset8 : BitVec 8} {s t : State} (h : jump offset8 s = .next t) :
    ∃ a, branchTarget s.cfg s.pc offset8 = .ok a ∧ t = s.setPc a := by
  obtain ⟨a, ha, e⟩ | ⟨e, -, he⟩ := jump_cases offset8 s
  · exact ⟨a, ha, Host.Outcome.next.inj (h.symm.trans e)⟩
  · exact absurd (he.symm.trans h) (raise_ne_next s t e)

/-- All that an ALU instruction can do when it answers a state (R125). -/
theorem aluToReg_inv {op : AluOp} {rd : Reg} {a b : Word} {s t : State} (h : aluToReg op rd a b s = .next t) :
    ∃ r f, t = (s.setReg rd r).setFlags f := by
  obtain ⟨r, f, e⟩ | ⟨e, he⟩ := aluToReg_cases op rd a b s
  · exact ⟨r, f, Host.Outcome.next.inj (h.symm.trans e)⟩
  · exact absurd (he.symm.trans h) (raise_ne_next s t e)

/-- All that LOAD can do when it answers a state (R173). -/
theorem execLoad_inv {f1 f2 : Reg} {addr6 : BitVec 6} {s t : State} (h : execLoad f1 f2 addr6 s = .next t) :
    ∃ v, memRead s.cfg s.dmem (effectiveAddress (s.getReg f2) addr6) = .ok v ∧ t = s.setReg f1 v := by
  unfold execLoad at h
  split at h
  · next v hv => exact ⟨v, hv, (Host.Outcome.next.inj h).symm⟩
  · exact absurd h (raise_ne_next s t _)

/-- All that STORE can do when it answers a state (R174). -/
theorem execStore_inv {f1 f2 : Reg} {addr6 : BitVec 6} {s t : State} (h : execStore f1 f2 addr6 s = .next t) :
    ∃ m, memWrite s.cfg s.dmem (storeAddress f1 f2 addr6 s) (s.getReg (storeRoles s.cfg f1 f2).1) = .ok m ∧
      t = s.setDmem m := by
  unfold execStore at h
  split at h
  · next m hm => exact ⟨m, hm, (Host.Outcome.next.inj h).symm⟩
  · exact absurd h (raise_ne_next s t _)

/-- All that BEQ can do when it answers a state: jump where Z is 1, nothing where it is 0 (R191). -/
theorem execBeq_inv {ra : Reg} {offset8 : BitVec 8} {s t : State} (h : execBeq ra offset8 s = .next t) :
    (s.flags.z = true ∧ jump offset8 s = .next t) ∨ (s.flags.z = false ∧ t = s) := by
  unfold execBeq at h
  split at h
  · next hz => exact .inl ⟨hz, h⟩
  · next hz => exact .inr ⟨Bool.eq_false_of_not_eq_true hz, (Host.Outcome.next.inj h).symm⟩

/-- All that BNE can do when it answers a state: nothing where Z is 1, jump where it is 0 (R192). -/
theorem execBne_inv {ra : Reg} {offset8 : BitVec 8} {s t : State} (h : execBne ra offset8 s = .next t) :
    (s.flags.z = true ∧ t = s) ∨ (s.flags.z = false ∧ jump offset8 s = .next t) := by
  unfold execBne at h
  split at h
  · next hz => exact .inl ⟨hz, (Host.Outcome.next.inj h).symm⟩
  · next hz => exact .inr ⟨Bool.eq_false_of_not_eq_true hz, h⟩

/-- All that CALL can do when it answers a state (R193). -/
theorem execCall_inv {offset8 : BitVec 8} {s t : State} (h : execCall offset8 s = .next t) :
    ∃ m a, stackWrite s.cfg s.dmem s.sp.toNat s.pc = .ok m ∧ branchTarget s.cfg s.pc offset8 = .ok a ∧
      t = ((s.setDmem m).setSp (s.sp - 1)).setPc a := by
  unfold execCall at h
  split at h
  · exact absurd h (raise_ne_next s t _)
  · next m hm =>
    split at h
    · exact absurd h (raise_ne_next s t _)
    · next a ha => exact ⟨m, a, hm, ha, (Host.Outcome.next.inj h).symm⟩

/-- All that RET can do when it answers a state (R194). -/
theorem execRet_inv {s t : State} (h : execRet s = .next t) :
    ∃ v, stackRead s.cfg s.dmem (popAddress s) = .ok v ∧ t = (s.setSp (wordOfInt (popAddress s))).setPc v := by
  unfold execRet at h
  split at h
  · exact absurd h (raise_ne_next s t _)
  · next v hv => exact ⟨v, hv, (Host.Outcome.next.inj h).symm⟩

/-! ### What no instruction, tick or run changes -/

/-- Nothing is changed by doing nothing. -/
theorem FixedKept.refl (s : State) : FixedKept s s := ⟨rfl, rfl, rfl, rfl⟩

/-- A jump keeps the latches, instruction memory and the parameters (R190). -/
theorem jump_fixedKept {offset8 : BitVec 8} {s t : State} (h : jump offset8 s = .next t) : FixedKept s t := by
  obtain ⟨a, -, rfl⟩ := jump_inv h
  exact .refl s

/-- An ALU instruction keeps the latches, instruction memory and the parameters (R125). -/
theorem aluToReg_fixedKept {op : AluOp} {rd : Reg} {a b : Word} {s t : State} (h : aluToReg op rd a b s = .next t) :
    FixedKept s t := by
  obtain ⟨r, f, rfl⟩ := aluToReg_inv h
  exact .refl s

/-- No instruction rule writes the latches, instruction memory or the parameters (R67, R126): the stores of STORE and CALL
are the only writes to memory, and they go to data memory. -/
theorem exec_fixedKept {i : Instr} {s t : State} (h : exec i s = .next t) : FixedKept s t := by
  cases i with
  | loadi => exact Host.Outcome.next.inj h ▸ .refl s
  | lui => exact Host.Outcome.next.inj h ▸ .refl s
  | load =>
    obtain ⟨v, -, rfl⟩ := execLoad_inv h
    exact .refl s
  | store =>
    obtain ⟨m, -, rfl⟩ := execStore_inv h
    exact .refl s
  | addi => exact aluToReg_fixedKept h
  | add => exact aluToReg_fixedKept h
  | sub => exact aluToReg_fixedKept h
  | and => exact aluToReg_fixedKept h
  | or => exact aluToReg_fixedKept h
  | shft => exact aluToReg_fixedKept h
  | beq ra =>
    obtain ⟨-, hj⟩ | ⟨-, rfl⟩ := execBeq_inv (ra := ra) h
    · exact jump_fixedKept hj
    · exact .refl t
  | bne ra =>
    obtain ⟨-, rfl⟩ | ⟨-, hj⟩ := execBne_inv (ra := ra) h
    · exact .refl t
    · exact jump_fixedKept hj
  | b => exact jump_fixedKept h
  | call =>
    obtain ⟨m, a, -, -, rfl⟩ := execCall_inv h
    exact .refl s
  | ret =>
    obtain ⟨v, -, rfl⟩ := execRet_inv h
    exact .refl s
  | halt => exact Host.Outcome.next.inj h ▸ .refl s

/-- No tick changes instruction memory or a parameter (R21, R67). -/
theorem step_keeps_imem_cfg {s t : State} (h : step s = .next t) : t.imem = s.imem ∧ t.cfg = s.cfg := by
  obtain ⟨-, rfl⟩ | ⟨-, i, s', hf, hx⟩ := step_next h
  · exact ⟨rfl, rfl⟩
  · obtain ⟨seq, -, -, rfl⟩ := fetchDecode_ok hf
    obtain ⟨-, -, him, hcfg⟩ := exec_fixedKept hx
    exact ⟨him, hcfg⟩

/-- No run changes instruction memory or a parameter (R21, R67). -/
theorem run_keeps_imem_cfg {k : Nat} {s t : State} (h : run k s = .next t) : t.imem = s.imem ∧ t.cfg = s.cfg :=
  run_induction (P := fun u => u.imem = s.imem ∧ u.cfg = s.cfg)
    (fun _ _ ⟨him, hcfg⟩ hstep => (step_keeps_imem_cfg hstep).imp (·.trans him) (·.trans hcfg))
    ⟨rfl, rfl⟩ h

/-- Settles O11: what no run changes is the memory a fetch reads and the parameters. -/
theorem noRunChangesProgramOrParameters : Obligations.NoRunChangesProgramOrParameters := by
  intro k s t h
  obtain ⟨him, hcfg⟩ := run_keeps_imem_cfg h
  exact ⟨fun a => congrArg (imemRead · a) him, him, hcfg⟩

/-! ### The ordinary path, branch by branch -/

/-- An address outside the space fails the first ordinary check (R56, R57). -/
theorem ordinaryCheck_of_outside {c : Config} {a : Int} (h : a < 0 ∨ 0xFFFF < a) :
    ordinaryCheck c a = .error (.operandRangeError a) :=
  if_pos (inAddressSpace_eq_false_iff.mpr h)

/-- An address of the stack region passes the first ordinary check and fails the second (R56, R57). -/
theorem ordinaryCheck_of_stack {c : Config} {a : Int} (h : (c.stackLo.toNat : Int) ≤ a ∧ a ≤ c.stackHi.toNat) :
    ordinaryCheck c a = .error (.protectedRegionError a) := by
  have hs : inStackRegion c a = true := inStackRegion_iff.mpr h
  simp [ordinaryCheck, hs, inAddressSpace_of_inStackRegion hs]

/-- Any other address passes both ordinary checks (R56, R57). -/
theorem ordinaryCheck_of_ordinary {c : Config} {a : Int} (ha : 0 ≤ a ∧ a ≤ 0xFFFF)
    (hs : ¬((c.stackLo.toNat : Int) ≤ a ∧ a ≤ c.stackHi.toNat)) : ordinaryCheck c a = .ok a.toNat := by
  have hs' : ¬inStackRegion c a = true := mt inStackRegion_iff.mp hs
  simp [ordinaryCheck, hs', inAddressSpace_iff.mpr ha]

/-- An ordinary write that passes both checks is the write to the address space (R57). -/
theorem memWrite_of_ordinary {c : Config} {a : Int} (ha : 0 ≤ a ∧ a ≤ 0xFFFF)
    (hs : ¬((c.stackLo.toNat : Int) ≤ a ∧ a ≤ c.stackHi.toNat)) (m : Memory) (v : Word) :
    memWrite c m a v = .ok (m.write a.toNat v) := by
  rw [memWrite, ordinaryCheck_of_ordinary ha hs]

/-- An ordinary write that fails a check answers that check's error (R57). -/
theorem memWrite_of_error {c : Config} {a : Int} {e : CoreError} (h : ordinaryCheck c a = .error e) (m : Memory) (v : Word) :
    memWrite c m a v = .error e := by
  rw [memWrite, h]

/-- The range error and the region error exclude each other: the stack region lies inside the space (R57). -/
theorem not_outside_and_stack (c : Config) (a : Int) :
    ¬((a < 0 ∨ 0xFFFF < a) ∧ (c.stackLo.toNat : Int) ≤ a ∧ a ≤ c.stackHi.toNat) := by
  rintro ⟨hout, hs⟩
  have hin := inAddressSpace_iff.mp (inAddressSpace_of_inStackRegion (inStackRegion_iff.mpr hs))
  omega

/-- Settles O31: the two checks, the write that follows them by the laws of one address space, and that the checks exclude
each other. -/
theorem ordinaryWritePathChecksThenWrites : Obligations.OrdinaryWritePathChecksThenWrites := by
  intro c m a v hm
  refine ⟨fun h => memWrite_of_error (ordinaryCheck_of_outside h) m _,
    fun h => memWrite_of_error (ordinaryCheck_of_stack h) m _, fun ha hs => ?_, not_outside_and_stack c a⟩
  have hlt : a.toNat < addressLimit := toNat_lt_of_inAddressSpace (inAddressSpace_iff.mpr ha)
  refine ⟨m.write a.toNat (wordOfInt v), memWrite_of_ordinary ha hs m _, ?_, Memory.wf_write hm hlt _,
    fun k hk => Memory.read_write_of_ne m _ hk⟩
  rw [Memory.read_write_same hm]
  exact toNat_wordOfInt v

end Sys2Proof.Machine
end

section
/-! PROOFS. The encoding chapter: which Words are legal and what an illegal one does to a tick (R94), the encode function
format by format (R98), and the offset of a label (R100). -/

namespace Sys2Proof.Machine

/-! ### Legal and illegal Words -/

/-- The opcode of a Word is its four highest bits, as arithmetic (R81). -/
theorem opcodeField_eq (w : Word) : opcodeField w = BitVec.ofNat 4 (w.toNat / 4096) := by
  simp [opcodeField, BitVec.extractLsb', Nat.shiftRight_eq_div_pow]

/-- A Word is a multiple of `2 ^ n` exactly when its `n` lowest bits are 0. -/
theorem toNat_mod_two_pow_eq_zero_iff (w : Word) (n : Nat) :
    w.toNat % 2 ^ n = 0 ↔ ∀ k < n, w.getLsbD k = false := by
  constructor
  · intro h k hk
    have hbit := congrArg (Nat.testBit · k) h
    simpa [Nat.testBit_mod_two_pow, hk, BitVec.getLsbD] using hbit
  · intro h
    refine Nat.zero_of_testBit_eq_false fun k => ?_
    rw [Nat.testBit_mod_two_pow, Bool.and_eq_false_imp]
    exact fun hk => h k (of_decide_eq_true hk)

/-- The bits R94 names for a mnemonic are the lowest bits of the Word, as many as its format's zero field has. -/
theorem zeroBitsSet_eq_any (m : Mnemonic) (w : Word) :
    zeroBitsSet m w = (List.range m.format.zeroWidth).any fun k => w.getLsbD k := by
  cases m with
  | LOAD | STORE | ADDI | RET | HALT => rfl
  | LOADI | LUI | BEQ | BNE => exact (Bool.or_false _).symm
  | ADD | SUB | AND | OR | SHFT | B | CALL =>
    simp only [zeroBitsSet, Mnemonic.format, Format.zeroWidth, List.range_succ]
    simp [Bool.or_comm]

/-- None of the bits R94 names is 1 exactly when the zero field is 0. -/
theorem zeroBitsSet_eq_false_iff (m : Mnemonic) (w : Word) : zeroBitsSet m w = false ↔ zeroField m.format w = 0 := by
  rw [zeroBitsSet_eq_any, zeroField, toNat_mod_two_pow_eq_zero_iff]
  simp

/-- The fields cut out for a mnemonic make an instruction of that mnemonic (R84). -/
@[simp] theorem cutFields_mnemonic (m : Mnemonic) (w : Word) : (cutFields m w).mnemonic = m := by
  cases m <;> rfl

/-- A Word whose named bits are all 0 decodes to its fields (R84, R94). -/
theorem decode_of_legal {om : Opmap} {w : Word} (h : zeroBitsSet (om.mnemonicOf (opcodeField w)) w = false) :
    decode om w = .ok (cutFields (om.mnemonicOf (opcodeField w)) w) :=
  if_pos ((zeroBitsSet_eq_false_iff _ w).mp h)

/-- A Word with one of its named bits 1 raises `DecodeError` (R94). -/
theorem decode_of_illegal {om : Opmap} {w : Word} (h : zeroBitsSet (om.mnemonicOf (opcodeField w)) w = true) :
    decode om w = .error (.decodeError w) := by
  refine if_neg fun h0 => ?_
  rw [(zeroBitsSet_eq_false_iff _ w).mpr h0] at h
  cases h

/-- The address after an instruction, wherever its range check answers one, is the program counter plus 1 (R122). -/
theorem seqAddress_ok {c : Config} {pc seq : Word} (h : seqAddress c pc = .ok seq) : seq = pc + 1 := by
  obtain ⟨-, hok⟩ | ⟨-, -, herr⟩ := pcAddress_cases c ((pc.toNat : Int) + 1)
  · rw [← Except.ok.inj (hok.symm.trans h)]
    simp [wordOfInt, BitVec.ofInt_add]
  · cases herr.symm.trans h

/-- After a fetch the address of the instruction is the program counter before it (R122, R201). -/
theorem fetch_instrAddress {s s' : State} (h : fetch s = .ok s') : s'.instrAddress = s.pc := by
  obtain ⟨seq, hseq, rfl⟩ := fetch_ok h
  change seq - 1 = s.pc
  rw [seqAddress_ok hseq, BitVec.add_sub_cancel]

/-- A fetch keeps the parameters (R21). -/
theorem fetch_cfg {s s' : State} (h : fetch s = .ok s') : s'.cfg = s.cfg := by
  obtain ⟨seq, -, rfl⟩ := fetch_ok h
  rfl

/-- A tick whose fetched Word does not decode ends with the decoder's error at the address of the instruction (R123). -/
theorem step_of_decode_error {s s' : State} {e : CoreError} (hs : s.halted = false) (hf : fetch s = .ok s')
    (hd : decode s.cfg.opmap s'.ir = .error e) : step s = .fault (.ofError e s.pc) := by
  have hfd : fetchDecode s = .error (.ofError e s.pc) := by
    simp [fetchDecode, decodeStep, hf, fetch_cfg hf, hd, fetch_instrAddress hf]
  simp [step, hs, hfd]

/-- Settles O13: the named bits are the zero field, which alone decides between the two answers of the decoder. -/
theorem illegalWordsRaiseDecodeError : Obligations.IllegalWordsRaiseDecodeError := by
  unfold Obligations.IllegalWordsRaiseDecodeError
  simp only [← opcodeField_eq]
  exact ⟨fun om w => ⟨decode_of_illegal, fun h => ⟨_, decode_of_legal h, cutFields_mnemonic _ w⟩⟩,
    fun s s' hs hf h => step_of_decode_error hs hf (decode_of_illegal h)⟩

/-! ### The encode function -/

open Sys2Proof.Laws.EncodedLayout (fieldBits)

/-- Every instruction has its Word laid out as R86 to R92 say. -/
theorem encodedLayout (i : Instr) : Laws.EncodedLayout.Statement i := by
  cases i with
  | loadi r imm => exact Laws.EncodedLayout.loadi r imm
  | lui r imm => exact Laws.EncodedLayout.lui r imm
  | load p q imm => exact Laws.EncodedLayout.load p q imm
  | store p q imm => exact Laws.EncodedLayout.store p q imm
  | addi p q imm => exact Laws.EncodedLayout.addi p q imm
  | add rd ra rb => exact Laws.EncodedLayout.add rd ra rb
  | sub rd ra rb => exact Laws.EncodedLayout.sub rd ra rb
  | and rd ra rb => exact Laws.EncodedLayout.and rd ra rb
  | or rd ra rb => exact Laws.EncodedLayout.or rd ra rb
  | shft rd ra rb => exact Laws.EncodedLayout.shft rd ra rb
  | beq r imm => exact Laws.EncodedLayout.beq r imm
  | bne r imm => exact Laws.EncodedLayout.bne r imm
  | b off => exact Laws.EncodedLayout.b off
  | call off => exact Laws.EncodedLayout.call off
  | ret => exact Laws.EncodedLayout.ret
  | halt => exact Laws.EncodedLayout.halt

/-- The Word of an instruction, from its opcode and the value of its fields as an integer (R98). -/
theorem encode_eq_wordOfInt (om : Opmap) {i : Instr} {n : Int} (hn : (fieldBits i : Int) = n) :
    encode om i = wordOfInt ((om.opcodeOf i.mnemonic).toNat * 4096 + n) := by
  obtain ⟨hword, -, -⟩ := encodedLayout i
  rw [← wordOfInt_toNat (encode om i), hword om, ← hn]
  norm_cast

/-- Masking to a field's width is reduction modulo its number of values (R98). -/
theorem toNat_ofInt_cast (n : Nat) (v : Int) : ((BitVec.ofInt n v).toNat : Int) = v % (2 ^ n : Nat) := by
  rw [BitVec.toNat_ofInt, Int.toNat_of_nonneg (Int.emod_nonneg v (by positivity))]

/-- All that the register check can do: accept an index in [0, 7] as the register it names, or raise the register-range
error (R98). -/
theorem regOperand_cases (v : Int) :
    ((0 ≤ v ∧ v ≤ 7) ∧ ∃ r : Reg, regOperand v = .ok r ∧ (r.val : Int) = v) ∨
    (¬(0 ≤ v ∧ v ≤ 7) ∧ regOperand v = .error (.raised (.operandRangeError v))) := by
  have hin : regInRange v = true ↔ 0 ≤ v ∧ v ≤ 7 := by simp [regInRange, within]
  by_cases h : 0 ≤ v ∧ v ≤ 7
  · refine .inl ⟨h, (BitVec.ofInt 3 v).toFin, if_pos (hin.mpr h), ?_⟩
    have hmod := toNat_ofInt_cast 3 v
    rw [BitVec.val_toFin]
    omega
  · exact .inr ⟨h, if_neg (mt hin.mp h)⟩

/-- An index in [0, 7] is accepted as the register it names (R98). -/
theorem regOperand_of_mem {v : Int} (h : 0 ≤ v ∧ v ≤ 7) : ∃ r : Reg, regOperand v = .ok r ∧ (r.val : Int) = v := by
  obtain ⟨-, hr⟩ | ⟨hv, -⟩ := regOperand_cases v
  · exact hr
  · exact absurd h hv

/-- Any other index is a register-range error (R98). -/
theorem regOperand_of_not_mem {v : Int} (h : ¬(0 ≤ v ∧ v ≤ 7)) :
    regOperand v = .error (.raised (.operandRangeError v)) := by
  obtain ⟨hv, -⟩ | ⟨-, he⟩ := regOperand_cases v
  · exact absurd hv h
  · exact he

/-- The operands of `m` are accepted by steps (1) and (2) of R98, and the fields they give have the value `n`. -/
def AssemblesTo (m : Mnemonic) (ops : List Int) (n : Int) : Prop :=
  ∃ i, assembleInstr m ops = .ok i ∧ i.mnemonic = m ∧ (fieldBits i : Int) = n

/-- The Word of accepted operands: the fields under the opcode of the mnemonic (R98). -/
theorem AssemblesTo.assemble {m : Mnemonic} {ops : List Int} {n : Int} (h : AssemblesTo m ops n) (om : Opmap) :
    assemble om m ops = .ok (wordOfInt ((om.opcodeOf m).toNat * 4096 + n)) := by
  obtain ⟨i, hi, rfl, hn⟩ := h
  rw [Sys2Proof.assemble, hi]
  exact congrArg Except.ok (encode_eq_wordOfInt om hn)

/-- An operand that is not accepted is the encode function's answer (R98). -/
theorem assemble_of_error {m : Mnemonic} {ops : List Int} {e : EncodeError} (h : assembleInstr m ops = .error e)
    (om : Opmap) : assemble om m ops = .error e := by
  rw [assemble, h]

/-- I8 and BC: a register and eight masked bits (R86, R90). -/
theorem assemblesTo_I8_BC {m : Mnemonic} (hm : m.format = .I8 ∨ m.format = .BC) {p : Int} (hp : 0 ≤ p ∧ p ≤ 7) (v : Int) :
    AssemblesTo m [p, v] (p * 512 + v % 256 * 2) := by
  have himm := toNat_ofInt_cast 8 v
  obtain ⟨x, hx, rfl⟩ := regOperand_of_mem hp
  cases m with
  | LOADI | LUI | BEQ | BNE =>
    simp only [AssemblesTo, assembleInstr, hx]
    exact ⟨_, rfl, rfl, by simp only [fieldBits]; omega⟩
  | _ => simp [Mnemonic.format] at hm

/-- I8 and BC with a bad register. -/
theorem assembleInstr_I8_BC_error {m : Mnemonic} (hm : m.format = .I8 ∨ m.format = .BC) {p : Int}
    (hp : ¬(0 ≤ p ∧ p ≤ 7)) (v : Int) : assembleInstr m [p, v] = .error (.raised (.operandRangeError p)) := by
  cases m with
  | LOADI | LUI | BEQ | BNE => simp only [assembleInstr, regOperand_of_not_mem hp]
  | _ => simp [Mnemonic.format] at hm

/-- I6 and M: two registers and six masked bits (R87, R88). -/
theorem assemblesTo_I6_M {m : Mnemonic} (hm : m.format = .I6 ∨ m.format = .M) {p q : Int} (hp : 0 ≤ p ∧ p ≤ 7)
    (hq : 0 ≤ q ∧ q ≤ 7) (v : Int) : AssemblesTo m [p, q, v] (p * 512 + q * 64 + v % 64) := by
  have himm := toNat_ofInt_cast 6 v
  obtain ⟨x, hx, rfl⟩ := regOperand_of_mem hp
  obtain ⟨y, hy, rfl⟩ := regOperand_of_mem hq
  cases m with
  | ADDI | LOAD | STORE =>
    simp only [AssemblesTo, assembleInstr, hx, hy]
    exact ⟨_, rfl, rfl, by simp only [fieldBits]; omega⟩
  | _ => simp [Mnemonic.format] at hm

/-- I6 and M with a bad register. -/
theorem assembleInstr_I6_M_error {m : Mnemonic} (hm : m.format = .I6 ∨ m.format = .M) {p q : Int}
    (h : ¬((0 ≤ p ∧ p ≤ 7) ∧ (0 ≤ q ∧ q ≤ 7))) (v : Int) :
    ∃ k, (k = p ∨ k = q) ∧ ¬(0 ≤ k ∧ k ≤ 7) ∧ assembleInstr m [p, q, v] = .error (.raised (.operandRangeError k)) := by
  cases m with
  | ADDI | LOAD | STORE =>
    obtain ⟨hp, x, hx, -⟩ | ⟨hp, hx⟩ := regOperand_cases p
    · have hq : ¬(0 ≤ q ∧ q ≤ 7) := fun hq => h ⟨hp, hq⟩
      exact ⟨q, .inr rfl, hq, by simp only [assembleInstr, hx, regOperand_of_not_mem hq]⟩
    · exact ⟨p, .inl rfl, hp, by simp only [assembleInstr, hx]⟩
  | _ => simp [Mnemonic.format] at hm

/-- R: three registers (R89). -/
theorem assemblesTo_R {m : Mnemonic} (hm : m.format = .R) {p q r : Int} (hp : 0 ≤ p ∧ p ≤ 7) (hq : 0 ≤ q ∧ q ≤ 7)
    (hr : 0 ≤ r ∧ r ≤ 7) : AssemblesTo m [p, q, r] (p * 512 + q * 64 + r * 8) := by
  obtain ⟨x, hx, rfl⟩ := regOperand_of_mem hp
  obtain ⟨y, hy, rfl⟩ := regOperand_of_mem hq
  obtain ⟨z, hz, rfl⟩ := regOperand_of_mem hr
  cases m with
  | ADD | SUB | AND | OR | SHFT =>
    simp only [AssemblesTo, assembleInstr, hx, hy, hz]
    exact ⟨_, rfl, rfl, rfl⟩
  | _ => cases hm

/-- R with a bad register. -/
theorem assembleInstr_R_error {m : Mnemonic} (hm : m.format = .R) {p q r : Int}
    (h : ¬((0 ≤ p ∧ p ≤ 7) ∧ (0 ≤ q ∧ q ≤ 7) ∧ (0 ≤ r ∧ r ≤ 7))) :
    ∃ k, (k = p ∨ k = q ∨ k = r) ∧ ¬(0 ≤ k ∧ k ≤ 7) ∧
      assembleInstr m [p, q, r] = .error (.raised (.operandRangeError k)) := by
  cases m with
  | ADD | SUB | AND | OR | SHFT =>
    obtain ⟨hp, x, hx, -⟩ | ⟨hp, hx⟩ := regOperand_cases p
    · obtain ⟨hq, y, hy, -⟩ | ⟨hq, hy⟩ := regOperand_cases q
      · have hr : ¬(0 ≤ r ∧ r ≤ 7) := fun hr => h ⟨hp, hq, hr⟩
        exact ⟨r, .inr (.inr rfl), hr, by simp only [assembleInstr, hx, hy, regOperand_of_not_mem hr]⟩
      · exact ⟨q, .inr (.inl rfl), hq, by simp only [assembleInstr, hx, hy]⟩
    · exact ⟨p, .inl rfl, hp, by simp only [assembleInstr, hx]⟩
  | _ => cases hm

/-- BU: eight masked bits (R91). -/
theorem assemblesTo_BU {m : Mnemonic} (hm : m.format = .BU) (v : Int) : AssemblesTo m [v] (v % 256 * 16) := by
  have himm := toNat_ofInt_cast 8 v
  cases m with
  | B | CALL => exact ⟨_, rfl, rfl, by simp only [fieldBits]; omega⟩
  | _ => cases hm

/-- O: no field (R92). -/
theorem assemblesTo_O {m : Mnemonic} (hm : m.format = .O) : AssemblesTo m [] 0 := by
  cases m with
  | RET | HALT => exact ⟨_, rfl, rfl, rfl⟩
  | _ => cases hm

/-- Settles O18: format by format, the accepted operands packed and the bad register reported. -/
theorem encoderMasksAndPacksFields : Obligations.EncoderMasksAndPacksFields := by
  intro om p q r v
  refine ⟨fun m hm => ⟨fun hp => ?_, fun hp => assemble_of_error (assembleInstr_I8_BC_error hm hp v) om⟩,
    fun m hm => ⟨fun ⟨hp, hq⟩ => ?_, fun h => ?_⟩, fun m hm => ⟨fun ⟨hp, hq, hr⟩ => ?_, fun h => ?_⟩,
    fun m hm => (assemblesTo_BU hm v).assemble om, fun m hm => ?_⟩
  · simpa only [add_assoc] using (assemblesTo_I8_BC hm hp v).assemble om
  · simpa only [add_assoc] using (assemblesTo_I6_M hm hp hq v).assemble om
  · obtain ⟨k, hk, hbad, he⟩ := assembleInstr_I6_M_error hm h v
    exact ⟨k, hk, hbad, assemble_of_error he om⟩
  · simpa only [add_assoc] using (assemblesTo_R hm hp hq hr).assemble om
  · obtain ⟨k, hk, hbad, he⟩ := assembleInstr_R_error hm h
    exact ⟨k, hk, hbad, assemble_of_error he om⟩
  · simpa only [add_zero] using (assemblesTo_O hm).assemble om

/-! ### Label offsets -/

/-- A target in range is the sum of `seq` and the offset's signed value (R190). -/
theorem branchTarget_eq_of_sum {c : Config} {seq t : Word} {offset8 : BitVec 8}
    (h : (seq.toNat : Int) + offset8.toInt = t.toNat) : branchTarget c seq offset8 = .ok t := by
  have hin : inAddressSpace (t.toNat : Int) = true := inAddressSpace_iff.mpr (by have := t.isLt; omega)
  rw [branchTarget, sext_eq_toInt, h, pcAddress_of_mem c hin, wordOfInt_toNat]

/-- Where the program counter does not wrap, a target answered is that sum (R27, R190). -/
theorem sum_eq_of_branchTarget {c : Config} {seq t : Word} {offset8 : BitVec 8} (hc : c.pcOverflow = .fault)
    (h : branchTarget c seq offset8 = .ok t) : (seq.toNat : Int) + offset8.toInt = t.toNat := by
  rw [branchTarget, sext_eq_toInt] at h
  obtain ⟨hin | hw, hok⟩ | ⟨-, -, herr⟩ := pcAddress_cases c ((seq.toNat : Int) + offset8.toInt)
  · obtain ⟨h0, h1⟩ := inAddressSpace_iff.mp hin
    rw [← Except.ok.inj (hok.symm.trans h), toNat_wordOfInt]
    omega
  · cases hc.symm.trans hw
  · cases herr.symm.trans h

/-- The address after an instruction that is not at the top, without wrapping (R122). -/
theorem toNat_add_one_of_ne_top {a : Word} (ha : a ≠ 0xFFFF) : (a + 1).toNat = a.toNat + 1 := by
  bv_omega

/-- The offset of a label is the distance to it from the next instruction, reduced modulo 256 (R100). -/
theorem toNat_labelOffset (a t : Word) : ((labelOffset a t).toNat : Int) = ((t.toNat : Int) - a.toNat - 1) % 256 :=
  toNat_ofInt_cast 8 _

/-- The signed value of the offset of a label is that distance exactly when the label is within reach (R100). -/
theorem toInt_labelOffset_iff (a t : Word) :
    (labelOffset a t).toInt = (t.toNat : Int) - a.toNat - 1 ↔
      (a.toNat : Int) - 127 ≤ t.toNat ∧ (t.toNat : Int) ≤ a.toNat + 128 := by
  have hmod := toNat_labelOffset a t
  have hval := (labelOffset a t).toInt_eq_toNat_cond
  split at hval <;> omega

/-- Settles O19: a transfer reaches the label exactly when the offset's signed value is the distance to it. -/
theorem labelOffsetsReachTheirLabels : Obligations.LabelOffsetsReachTheirLabels := by
  intro c a t ha
  have hseq := toNat_add_one_of_ne_top ha
  have hreach := toInt_labelOffset_iff a t
  refine ⟨toNat_labelOffset a t, fun hlo hhi => branchTarget_eq_of_sum ?_, fun hc hout ht => hout (hreach.mp ?_)⟩
  · have hoff := hreach.mpr ⟨hlo, hhi⟩
    omega
  · have hsum := sum_eq_of_branchTarget hc ht
    omega

end Sys2Proof.Machine
end

section
/-! PROOFS. The tick of a halted core (R121): what one tick leaves as it is, every later tick leaves as it is. -/

namespace Sys2Proof.Machine

/-- A state that a tick leaves as it is stays as it is under every number of ticks. -/
theorem run_of_step_self {s : State} (h : step s = .next s) (k : Nat) : run k s = .next s := by
  induction k with
  | zero => exact run_zero s
  | succ k ih => rw [run_succ, h]; exact ih

/-- The tick result of a halted core (R121). -/
theorem tickResult_of_halted {s : State} (h : s.halted = true) : s.tickResult = false := by
  rw [State.tickResult, h, Bool.not_true]

/-- Settles O6: a halted core's step leaves its state as it is, hence so does every run from it. -/
theorem haltedCoreIgnoresTicks : Obligations.HaltedCoreIgnoresTicks := fun _ k h =>
  ⟨step_of_halted h, run_of_step_self (step_of_halted h) k, tickResult_of_halted h⟩

end Sys2Proof.Machine
end

section
/-! PROOFS. The ALU's operations (R143 to R147): the flags of every result, the sign rule as signed overflow, and the rule of
each of ADD, SUB, AND and OR as `Safety` states it in integers. -/

namespace Sys2Proof.Machine

/-! ### The flags of every result -/

/-- Bit 15 of a Word as a bound on its value (R7). -/
theorem msb_eq_true_iff (w : Word) : w.msb = true ↔ 32768 ≤ w.toNat := by
  rw [BitVec.msb_eq_decide, decide_eq_true_eq]

/-- What the ALU answers has `N` and `Z` from the result, whichever operation was selected (R143). -/
theorem alu_ok_flags {cm : AluCtrlMap} {ctrl : BitVec 3} {a b : Int} {f g : Flags} {r : Word}
    (h : alu cm ctrl a b f = .ok (r, g)) : g.n = r.msb ∧ g.z = decide (r = 0) := by
  unfold alu at h
  split at h
  · obtain ⟨rfl, rfl⟩ := Prod.mk.inj (Except.ok.inj h)
    exact ⟨rfl, rfl⟩
  · cases h

/-- A Word with bit 15 set is not 0. -/
theorem ne_zero_of_msb {r : Word} (h : r.msb = true) : r ≠ 0 := by
  rintro rfl
  cases h

/-- Settles O20: `N` and `Z` come from the result at the end of every operation, and a negative Word is not 0. -/
theorem aluSetsNAndZFromTheResult : Obligations.AluSetsNAndZFromTheResult := by
  intro cm ctrl a b f g r h
  obtain ⟨hn, hz⟩ := alu_ok_flags h
  rw [hn, hz, decide_eq_true_eq]
  exact ⟨r.msb_eq_getLsbD_last, Iff.rfl, fun ⟨hneg, hzero⟩ => ne_zero_of_msb hneg hzero⟩

/-- The flags put beside a result are the `N` and `Z` of R143, in integers. -/
theorem resultFlags_withResultFlags (p : AluPart) : ResultFlags (withResultFlags p).1 (withResultFlags p).2 :=
  ⟨msb_eq_true_iff p.1, decide_eq_true_iff.trans BitVec.toNat_eq⟩

/-- On two Words the ALU answers the operation whose code is presented, under every admitted map (R141, R142). -/
theorem alu_aluCode_toNat {cm : AluCtrlMap} (h : AluCtrlMap.wf cm = true) (op : AluOp) (a b : Word) (f : Flags) :
    alu cm (aluCode cm op) a.toNat b.toNat f = .ok (withResultFlags (aluOperate op a b f.c)) := by
  rw [alu_aluCode h, wordOfInt_toNat, wordOfInt_toNat]

/-! ### The sign rule -/

/-- Equal signs as bounds on the values (R7). -/
theorem msb_eq_msb_iff (a b : Word) : a.msb = b.msb ↔ (32768 ≤ a.toNat ↔ 32768 ≤ b.toNat) := by
  rw [Bool.eq_iff_iff, msb_eq_true_iff, msb_eq_true_iff]

/-- The overflow test is the sign rule in integers (R144). -/
theorem overflows_eq_true_iff (a b r : Word) : overflows a b r = true ↔ SignRule a b r := by
  rw [overflows, Bool.and_eq_true, beq_iff_eq, bne_iff_ne, Ne, msb_eq_msb_iff, msb_eq_msb_iff, SignRule]

/-- On a sum the sign rule is true signed overflow (R144). -/
theorem signRule_add_iff (a b : Word) :
    SignRule a b (a + b) ↔ ¬(-32768 ≤ a.toInt + b.toInt ∧ a.toInt + b.toInt ≤ 32767) := by
  have ha := a.toInt_eq_toNat_cond
  have hb := b.toInt_eq_toNat_cond
  have hr := BitVec.toNat_add a b
  unfold SignRule
  split at ha <;> split at hb <;> omega

/-! ### ADD -/

/-- ADD by its rule (R144). -/
theorem addSpec_aluAdd (a b : Word) :
    AddSpec a b (withResultFlags (aluAdd a b)).1 (withResultFlags (aluAdd a b)).2 :=
  ⟨BitVec.toNat_add a b, resultFlags_withResultFlags _, decide_eq_true_iff, overflows_eq_true_iff a b (a + b)⟩

/-- Settles O21: ADD by its rule, whose sign rule is true signed overflow on a sum. -/
theorem aluAddsWithCarryAndOverflow : Obligations.AluAddsWithCarryAndOverflow := fun _ a b f h =>
  ⟨_, _, alu_aluCode_toNat h .add a b f, addSpec_aluAdd a b,
    (overflows_eq_true_iff a b (a + b)).trans (signRule_add_iff a b)⟩

/-! ### SUB -/

/-- The Word 65536 - b is the negation of `b` (R145). -/
theorem ofNat_sub_toNat (b : Word) : BitVec.ofNat 16 (65536 - b.toNat) = -b := rfl

/-- Adding the negation gives the difference modulo 65536 (R145). -/
theorem toNat_add_neg (a b : Word) : ((a + -b).toNat : Int) = ((a.toNat : Int) - b.toNat) % 65536 := by
  rw [BitVec.toNat_add, BitVec.toNat_neg]
  omega

/-- SUB by its rule (R145). -/
theorem subSpec_aluSub (a b : Word) :
    SubSpec a b (withResultFlags (aluSub a b)).1 (withResultFlags (aluSub a b)).2 := by
  refine ⟨toNat_add_neg a b, resultFlags_withResultFlags _, decide_eq_true_iff, ?_⟩
  rw [ofNat_sub_toNat]
  exact overflows_eq_true_iff a (-b) (a + -b)

/-- Where negation does not wrap, overflow of `a` plus the negated `b` is true signed overflow of the difference (R145). -/
theorem overflows_neg_iff (a : Word) {b : Word} (hb : b ≠ 0x8000) :
    overflows a (-b) (a + -b) = true ↔ ¬(-32768 ≤ a.toInt - b.toInt ∧ a.toInt - b.toInt ≤ 32767) := by
  rw [overflows_eq_true_iff, signRule_add_iff, BitVec.toInt_neg_of_ne_intMin hb, ← Int.sub_eq_add_neg]

/-- At `b = 0x8000`, its own negation, the overflow of SUB is bit 15 of `a` (R145). -/
theorem overflows_neg_min (a : Word) : overflows a (-0x8000) (a + -0x8000) = a.msb := by
  rw [Bool.eq_iff_iff, overflows_eq_true_iff, signRule_add_iff, BitVec.msb_eq_toInt, decide_eq_true_eq]
  have hmin : (-0x8000 : Word).toInt = -32768 := rfl
  have hlt := a.toInt_lt
  omega

/-- A negative Word is one whose difference from -32768 is in the signed range (R145). -/
theorem msb_iff_sub_min_mem (a : Word) :
    a.msb = true ↔ -32768 ≤ a.toInt - (0x8000 : Word).toInt ∧ a.toInt - (0x8000 : Word).toInt ≤ 32767 := by
  rw [BitVec.msb_eq_toInt, decide_eq_true_eq]
  have hmin : (0x8000 : Word).toInt = -32768 := rfl
  have hle := a.le_toInt
  omega

/-- Settles O22: SUB by its rule; its `V` where negation does not wrap, and at the one Word where it does. -/
theorem aluSubtractsByNegatedAdd : Obligations.AluSubtractsByNegatedAdd := by
  intro cm a b f h
  refine ⟨_, _, alu_aluCode_toNat h .sub a b f, subSpec_aluSub a b, overflows_neg_iff a, ?_⟩
  rintro rfl
  have hv := overflows_neg_min a
  exact ⟨hv.trans a.msb_eq_getLsbD_last, (Bool.eq_iff_iff.mp hv).trans (msb_iff_sub_min_mem a)⟩

/-! ### AND and OR -/

/-- AND by its rule (R146). -/
theorem andSpec_aluAnd (a b : Word) :
    AndSpec a b (withResultFlags (aluAnd a b)).1 (withResultFlags (aluAnd a b)).2 :=
  ⟨fun _ => BitVec.getLsbD_and, resultFlags_withResultFlags _, rfl, rfl⟩

/-- OR by its rule (R147). -/
theorem orSpec_aluOr (a b : Word) :
    OrSpec a b (withResultFlags (aluOr a b)).1 (withResultFlags (aluOr a b)).2 :=
  ⟨fun _ => BitVec.getLsbD_or, resultFlags_withResultFlags _, rfl, rfl⟩

/-- Settles O23: AND and OR, each by its rule. -/
theorem aluAndOrClearCarryAndOverflow : Obligations.AluAndOrClearCarryAndOverflow := fun _ a b f h =>
  ⟨⟨_, _, alu_aluCode_toNat h .and a b f, andSpec_aluAnd a b⟩, ⟨_, _, alu_aluCode_toNat h .or a b f, orSpec_aluOr a b⟩⟩

end Sys2Proof.Machine
end

section
/-! PROOFS. Data movement (R170, R171): the layout of a Word by its format, the frame of a register write, and the values
LOADI and LUI write. -/

namespace Sys2Proof.Machine

/-! ### The layout of a Word -/

/-- A field cut out of a Word, as arithmetic (R82). -/
theorem extractLsb'_eq_bitsAt (n lo : Nat) (w : Word) : w.extractLsb' lo n = bitsAt n lo w.toNat :=
  congrArg (BitVec.ofNat n) (Nat.shiftRight_eq_div_pow w.toNat lo)

/-- A register field cut out of a Word, as arithmetic (R82). -/
theorem toFin_extractLsb'_eq_regAt (lo : Nat) (w : Word) : (w.extractLsb' lo 3).toFin = regAt lo w.toNat :=
  congrArg BitVec.toFin (extractLsb'_eq_bitsAt 3 lo w)

/-- Where the fields cut out for a mnemonic are `fields`, its Words are read as `fields` says if the zero field of its format
is 0, and raise `DecodeError` otherwise (R84, R94). -/
theorem decodesAs_of_cutFields {m : Mnemonic} {fields : Nat → Instr} (h : ∀ w, cutFields m w = fields w.toNat) :
    DecodesAs m m.format.zeroWidth fields := by
  rintro om w rfl
  rw [← h, ← opcodeField_eq]
  rfl

/-! ### The frame of a register write -/

/-- A register write changes that register and nothing else. -/
theorem onlyReg_setReg (s : State) (r : Reg) (v : Word) : OnlyReg r s (s.setReg r v) := by
  have hregs : RegsKeptBut (some r) s (s.setReg r v) := fun k hk =>
    s.getReg_setReg_of_ne r k v (mt (congrArg some) hk)
  exact ⟨⟨hregs, rfl, rfl, rfl, fun _ _ => rfl, .refl s⟩, rfl⟩

/-! ### LOADI -/

/-- Zero extension keeps the value (R170). -/
theorem toNat_zext8 (imm8 : BitVec 8) : (zext8 imm8).toNat = imm8.toNat :=
  BitVec.toNat_setWidth_of_le (by decide)

/-- The fields of a LOADI Word (R86). -/
theorem cutFields_LOADI (w : Word) : cutFields .LOADI w = .loadi (regAt 9 w.toNat) (bitsAt 8 1 w.toNat) :=
  congrArg₂ Instr.loadi (toFin_extractLsb'_eq_regAt 9 w) (extractLsb'_eq_bitsAt 8 1 w)

/-- Settles O26: LOADI is one register write, of the zero-extended immediate; its Word is read by its format. -/
theorem loadiLoadsTheZeroExtendedImmediate : Obligations.LoadiLoadsTheZeroExtendedImmediate := by
  refine ⟨fun s rd imm8 => ⟨s.setReg rd (zext8 imm8), rfl, ?_, onlyReg_setReg s rd _⟩,
    decodesAs_of_cutFields cutFields_LOADI⟩
  rw [State.getReg_setReg_self, toNat_zext8]

/-! ### LUI -/

/-- The immediate is the upper byte and the old lower byte stays (R171). -/
theorem toNat_upperByte (imm8 : BitVec 8) (old : Word) :
    (upperByte imm8 old).toNat = imm8.toNat * 256 + old.toNat % 256 :=
  Laws.EncodedLayout.append_toNat imm8 (old.extractLsb' 0 8)

/-- The fields of a LUI Word (R86). -/
theorem cutFields_LUI (w : Word) : cutFields .LUI w = .lui (regAt 9 w.toNat) (bitsAt 8 1 w.toNat) :=
  congrArg₂ Instr.lui (toFin_extractLsb'_eq_regAt 9 w) (extractLsb'_eq_bitsAt 8 1 w)

/-- Settles O27: LUI is one register write, of the immediate above the old lower byte; its Word is read by its format. -/
theorem luiReplacesTheUpperByte : Obligations.LuiReplacesTheUpperByte := by
  refine ⟨fun s rd imm8 => ⟨s.setReg rd (upperByte imm8 (s.getReg rd)), rfl, ?_, onlyReg_setReg s rd _⟩,
    decodesAs_of_cutFields cutFields_LUI⟩
  rw [State.getReg_setReg_self, toNat_upperByte]

end Sys2Proof.Machine
end

section
/-! PROOFS. The instructions that use the ALU (R180 to R184): the one rule by which each of them completes, the layout of their
Words, and the obligations made of it and of the ALU's rule for each operation. -/

namespace Sys2Proof.Machine

/-! ### Completing an ALU instruction -/

/-- A register write and a write of the flags change that register and the flags, and nothing else: the frame does not speak
of the flags. -/
theorem onlyRegAndFlags_setReg_setFlags (s : State) (r : Reg) (v : Word) (f : Flags) :
    OnlyRegAndFlags r s ((s.setReg r v).setFlags f) :=
  (onlyReg_setReg s r v).1

/-- Under admitted parameters an ALU instruction completes, changes nothing but its register and the flags, and leaves in
them whatever the operation's rule `Spec` says of its result and flags (R125). -/
theorem aluToReg_completes {s : State} (h : s.cfg.wf = true) (op : AluOp) (rd : Reg) {a b : Word}
    {Spec : Word → Flags → Prop}
    (hSpec : Spec (withResultFlags (aluOperate op a b s.flags.c)).1 (withResultFlags (aluOperate op a b s.flags.c)).2) :
    ∃ t, aluToReg op rd a b s = .next t ∧ Spec (t.getReg rd) t.flags ∧ OnlyRegAndFlags rd s t := by
  refine ⟨_, aluToReg_next h op rd a b, ?_, onlyRegAndFlags_setReg_setFlags s rd _ _⟩
  rw [State.setFlags_getReg, State.getReg_setReg_self, State.setFlags_flags]
  exact hSpec

/-! ### The layout of their Words -/

/-- The register field in bits 11:9, as arithmetic (R87, R89). -/
theorem firstReg_eq_regAt (w : Word) : firstReg w = regAt 9 w.toNat := toFin_extractLsb'_eq_regAt 9 w

/-- The register field in bits 8:6, as arithmetic (R87, R89). -/
theorem secondReg_eq_regAt (w : Word) : secondReg w = regAt 6 w.toNat := toFin_extractLsb'_eq_regAt 6 w

/-- The register field in bits 5:3, as arithmetic (R89). -/
theorem thirdReg_eq_regAt (w : Word) : thirdReg w = regAt 3 w.toNat := toFin_extractLsb'_eq_regAt 3 w

/-- The immediate in bits 5:0, as arithmetic (R87). -/
theorem field6_eq_bitsAt (w : Word) : field6 w = bitsAt 6 0 w.toNat := extractLsb'_eq_bitsAt 6 0 w

/-- Where a mnemonic of format R cuts its three registers out for `mk`, its Words are read so if bits 2:0 are 0, and raise
`DecodeError` otherwise (R89, R94). -/
theorem decodesAs_of_threeRegs {m : Mnemonic} (hm : m.format = .R) {mk : Reg → Reg → Reg → Instr}
    (h : ∀ w, cutFields m w = mk (firstReg w) (secondReg w) (thirdReg w)) :
    DecodesAs m 3 fun w => mk (regAt 9 w) (regAt 6 w) (regAt 3 w) := by
  have hdec : DecodesAs m m.format.zeroWidth fun w => mk (regAt 9 w) (regAt 6 w) (regAt 3 w) :=
    decodesAs_of_cutFields fun w => by rw [h, firstReg_eq_regAt, secondReg_eq_regAt, thirdReg_eq_regAt]
  rw [hm] at hdec
  exact hdec

/-! ### ADDI -/

/-- ADDI's operand is the immediate's signed value as a Word (R180). -/
theorem addiOperand_eq (imm6 : BitVec 6) : addiOperand imm6 = wordOfInt imm6.toInt :=
  congrArg wordOfInt (sext_eq_toInt imm6)

/-- The fields of an ADDI Word (R87). -/
theorem cutFields_ADDI (w : Word) :
    cutFields .ADDI w = .addi (regAt 9 w.toNat) (regAt 6 w.toNat) (bitsAt 6 0 w.toNat) := by
  rw [cutFields, firstReg_eq_regAt, secondReg_eq_regAt, field6_eq_bitsAt]

/-- Settles O35: ADDI completes by the rule of ADD on its operand; its Word is read by its format. -/
theorem addiAddsTheSignExtendedImmediate : Obligations.AddiAddsTheSignExtendedImmediate := by
  refine ⟨fun s rd ra imm6 h => ?_, decodesAs_of_cutFields cutFields_ADDI⟩
  rw [← addiOperand_eq]
  exact aluToReg_completes h .add rd (addSpec_aluAdd (s.getReg ra) (addiOperand imm6))

/-! ### ADD, SUB, AND and OR -/

/-- Settles O36: ADD and SUB complete, each by its rule; their Words are read by format R. -/
theorem addAndSubWriteResultAndFlags : Obligations.AddAndSubWriteResultAndFlags := by
  refine ⟨fun s rd ra rb h => ⟨?add, ?sub⟩, decodesAs_of_threeRegs rfl fun _ => rfl, decodesAs_of_threeRegs rfl fun _ => rfl⟩
  case add => exact aluToReg_completes h .add rd (addSpec_aluAdd (s.getReg ra) (s.getReg rb))
  case sub => exact aluToReg_completes h .sub rd (subSpec_aluSub (s.getReg ra) (s.getReg rb))

/-- Settles O37: AND and OR complete, each by its rule; their Words are read by format R. -/
theorem andAndOrWriteResultAndFlags : Obligations.AndAndOrWriteResultAndFlags := by
  refine ⟨fun s rd ra rb h => ⟨?and, ?or⟩, decodesAs_of_threeRegs rfl fun _ => rfl, decodesAs_of_threeRegs rfl fun _ => rfl⟩
  case and => exact aluToReg_completes h .and rd (andSpec_aluAnd (s.getReg ra) (s.getReg rb))
  case or => exact aluToReg_completes h .or rd (orSpec_aluOr (s.getReg ra) (s.getReg rb))

end Sys2Proof.Machine
end

section
/-! PROOFS. One tick (R120 to R124): the fetch and its range check, which instruction a running core executes and in which
state, and the errors before execute. -/

namespace Sys2Proof.Machine

/-! ### The instruction of a tick -/

/-- The sequential address is `pc + 1` wherever its range check answers one (R122). -/
theorem seqAddress_of_ne_top {c : Config} {pc : Word} (h : pc ≠ 0xFFFF ∨ c.pcOverflow = .wrap) :
    seqAddress c pc = .ok (pc + 1) := by
  obtain ⟨-, hok⟩ | ⟨hout, hc, -⟩ := pcAddress_cases c ((pc.toNat : Int) + 1)
  · exact hok.trans (congrArg Except.ok (seqAddress_ok hok))
  · rw [inAddressSpace_eq_false_iff] at hout
    rcases h with h | h
    · bv_omega
    · cases hc.symm.trans h

/-- At the top of instruction memory the fetch's range check fails, unless the program counter wraps (R27, R122). -/
theorem seqAddress_of_top {c : Config} (h : c.pcOverflow = .fault) :
    seqAddress c 0xFFFF = .error (.operandRangeError 0x10000) :=
  pcAddress_of_fault h rfl

/-- The fetch of every tick that passes the range check (R122). -/
theorem fetch_of_ne_top {s : State} (h : s.pc ≠ 0xFFFF ∨ s.cfg.pcOverflow = .wrap) :
    fetch s = .ok (s.fetched (imemRead s.imem s.pc) (s.pc + 1)) := by
  rw [fetch, seqAddress_of_ne_top h]

/-- The fetch of a tick that fails the range check (R122). -/
theorem fetch_of_top {s : State} (hpc : s.pc = 0xFFFF) (hc : s.cfg.pcOverflow = .fault) :
    fetch s = .error (.operandRangeError 0x10000 0xFFFF) := by
  rw [fetch, hpc, seqAddress_of_top hc]
  rfl

/-- The state that the fetch and decode of the instruction `i` leave (R122, R123). -/
def afterDecode (s : State) (i : Instr) : State := (s.fetched (imemRead s.imem s.pc) (s.pc + 1)).latched i

/-- What fetch and decode answer for a Word that decodes (R122, R123). -/
theorem fetchDecode_of_decode {s : State} {i : Instr} (h : s.pc ≠ 0xFFFF ∨ s.cfg.pcOverflow = .wrap)
    (hd : decode s.cfg.opmap (imemRead s.imem s.pc) = .ok i) : fetchDecode s = .ok (i, afterDecode s i) := by
  simp [fetchDecode, fetch_of_ne_top h, decodeStep, hd, afterDecode]

/-- The instruction a running core executes is the one the Word at `pc` decodes to, in the state fetch and decode leave. -/
theorem Executes.inv {s s' : State} {i : Instr} (h : Executes s i s') :
    decode s.cfg.opmap (imemRead s.imem s.pc) = .ok i ∧ s' = afterDecode s i := by
  obtain ⟨seq, hseq, hd, rfl⟩ := fetchDecode_ok h.2
  exact ⟨hd, by rw [seqAddress_ok hseq, afterDecode]⟩

/-- Fetch and decode keep data memory (R122, R123). -/
theorem Executes.dmem_eq {s s' : State} {i : Instr} (h : Executes s i s') : s'.dmem = s.dmem := h.inv.2 ▸ rfl

/-- Fetch and decode keep the parameters (R21). -/
theorem Executes.cfg_eq {s s' : State} {i : Instr} (h : Executes s i s') : s'.cfg = s.cfg := h.inv.2 ▸ rfl

/-- Fetch and decode keep `sp` (R122, R123). -/
theorem Executes.sp_eq {s s' : State} {i : Instr} (h : Executes s i s') : s'.sp = s.sp := h.inv.2 ▸ rfl

/-- Fetch leaves the program counter at the next address (R122). -/
theorem Executes.pc_eq {s s' : State} {i : Instr} (h : Executes s i s') : s'.pc = s.pc + 1 := h.inv.2 ▸ rfl

/-- A tick of a running core is the rule of the instruction it executes (R124). -/
theorem Executes.step {s s' : State} {i : Instr} (h : Executes s i s') : step s = exec i s' :=
  step_of_fetchDecode h.1 h.2

/-- All that a step can do when it answers a state: nothing to a halted core, or execute an instruction to the end. -/
theorem step_inv {s t : State} (h : step s = .next t) :
    (s.halted = true ∧ t = s) ∨ ∃ i s', Executes s i s' ∧ exec i s' = .next t := by
  obtain hh | ⟨hs, i, s', hf, hx⟩ := step_next h
  · exact .inl hh
  · exact .inr ⟨i, s', ⟨hs, hf⟩, hx⟩

/-- Settles O8: fetch and decode answer the instruction, and the tick is its rule. -/
theorem stepRunsTheFetchedInstruction : Obligations.StepRunsTheFetchedInstruction := fun _ _ hs hpc hd =>
  step_of_fetchDecode hs (fetchDecode_of_decode hpc hd)

/-- Settles O9: the fetch at the top fails before any Word is decoded; elsewhere the decoder's one error is the tick's. -/
theorem fetchAndDecodeErrorsInOrder : Obligations.FetchAndDecodeErrorsInOrder := by
  refine fun s hs => ⟨fun hpc hc => ?_, fun hpc hd => ?_⟩
  · simp [step, hs, fetchDecode, fetch_of_top hpc hc]
  · cases hz : zeroBitsSet (s.cfg.opmap.mnemonicOf (opcodeField (imemRead s.imem s.pc))) (imemRead s.imem s.pc) with
    | true => exact step_of_decode_error hs (fetch_of_ne_top hpc) (decode_of_illegal hz)
    | false => exact absurd (decode_of_legal hz) (hd _)

/-- The Word placed is the one read at `pc`. -/
theorem imemRead_withFetchWord {s : State} (hm : s.imem.wf = true) (n : Nat) :
    imemRead (s.withFetchWord 16 n).imem (s.withFetchWord 16 n).pc = BitVec.ofNat 16 n := by
  change (s.imem.write s.pc.toNat (BitVec.ofNat 16 (n % 2 ^ 16))).read s.pc.toNat = BitVec.ofNat 16 n
  rw [Memory.read_write_same hm]
  exact BitVec.eq_of_toNat_eq (by simp)

/-- Settles O10: the placed Word is read at `pc`, and the core runs it. -/
theorem placedWordIsFetchedNext : Obligations.PlacedWordIsFetchedNext := by
  intro s n i hm hpc hd
  have hread := imemRead_withFetchWord hm n
  have hstep := stepRunsTheFetchedInstruction (s.withFetchWord 16 n) i rfl (.inl hpc) (by rw [hread]; exact hd)
  rw [hread] at hstep
  exact hstep

end Sys2Proof.Machine
end

section
/-! PROOFS. What a completed instruction has done, kind by kind, and from it the invariant that every tick keeps. -/

namespace Sys2Proof.Machine

/-! ### What a completed instruction has done -/

/-- What an instruction `i` that completes in `s` has done, kind by kind. -/
inductive Completed (s : State) : Instr → State → Prop
  /-- LOADI, LUI, LOAD: one register written -/
  | moved {i : Instr} {r : Reg} (v : Word) (hi : i.mnemonic = .LOADI ∨ i.mnemonic = .LUI ∨ i.mnemonic = .LOAD)
      (hr : regWritten i = some r) : Completed s i (s.setReg r v)
  /-- the six ALU instructions: one register and the flags written, from one result of the ALU -/
  | computed {i : Instr} {r : Reg} (p : AluPart) (hi : usesAlu i.mnemonic = true) (hr : regWritten i = some r) :
      Completed s i ((s.setReg r (withResultFlags p).1).setFlags (withResultFlags p).2)
  /-- STORE: one ordinary write -/
  | stored {f1 f2 : Reg} {d : BitVec 6} {m : Memory}
      (hm : memWrite s.cfg s.dmem (storeAddress f1 f2 d s) (s.getReg (storeRoles s.cfg f1 f2).1) = .ok m) :
      Completed s (.store f1 f2 d) (s.setDmem m)
  /-- BEQ and BNE not taken -/
  | fell {i : Instr} (hi : i.mnemonic = .BEQ ∨ i.mnemonic = .BNE) : Completed s i s
  /-- BEQ and BNE taken, and B -/
  | branched {i : Instr} {off : BitVec 8} {a : Word} (hi : (∃ ra, i = .beq ra off ∨ i = .bne ra off) ∨ i = .b off)
      (ha : branchTarget s.cfg s.pc off = .ok a) : Completed s i (s.setPc a)
  /-- CALL: one stack write at `sp` -/
  | called {off : BitVec 8} {m : Memory} {a : Word} (hm : stackWrite s.cfg s.dmem s.sp.toNat s.pc = .ok m)
      (ha : branchTarget s.cfg s.pc off = .ok a) : Completed s (.call off) (((s.setDmem m).setSp (s.sp - 1)).setPc a)
  /-- RET: one stack read at `sp + 1` -/
  | returned {v : Word} (hv : stackRead s.cfg s.dmem (popAddress s) = .ok v) :
      Completed s .ret ((s.setSp (wordOfInt (popAddress s))).setPc v)
  /-- HALT -/
  | stopped : Completed s .halt s.halt

/-- All that an ALU instruction can do when it answers a state, with where its flags come from (R125, R143). -/
theorem aluToReg_inv_part {op : AluOp} {rd : Reg} {a b : Word} {s t : State} (h : aluToReg op rd a b s = .next t) :
    ∃ p, t = (s.setReg rd (withResultFlags p).1).setFlags (withResultFlags p).2 := by
  unfold aluToReg alu at h
  cases hsel : aluSelect s.cfg.aluCtrl (aluCode s.cfg.aluCtrl op) with
  | ok op' =>
    rw [hsel] at h
    exact ⟨_, (Host.Outcome.next.inj h).symm⟩
  | error e =>
    rw [hsel] at h
    exact absurd h (raise_ne_next s t e)

/-- All that an instruction can do when it answers a state (R124). -/
theorem exec_completed {i : Instr} {s t : State} (h : exec i s = .next t) : Completed s i t := by
  cases i with
  | loadi => exact Host.Outcome.next.inj h ▸ .moved _ (.inl rfl) rfl
  | lui => exact Host.Outcome.next.inj h ▸ .moved _ (.inr (.inl rfl)) rfl
  | load =>
    obtain ⟨v, -, rfl⟩ := execLoad_inv h
    exact .moved v (.inr (.inr rfl)) rfl
  | store =>
    obtain ⟨m, hm, rfl⟩ := execStore_inv h
    exact .stored hm
  | addi | add | sub | and | or | shft =>
    obtain ⟨p, rfl⟩ := aluToReg_inv_part h
    exact .computed p rfl rfl
  | beq ra =>
    obtain ⟨-, hj⟩ | ⟨-, rfl⟩ := execBeq_inv (ra := ra) h
    · obtain ⟨a, ha, rfl⟩ := jump_inv hj
      exact .branched (.inl ⟨ra, .inl rfl⟩) ha
    · exact .fell (.inl rfl)
  | bne ra =>
    obtain ⟨-, rfl⟩ | ⟨-, hj⟩ := execBne_inv (ra := ra) h
    · exact .fell (.inr rfl)
    · obtain ⟨a, ha, rfl⟩ := jump_inv hj
      exact .branched (.inl ⟨ra, .inr rfl⟩) ha
  | b =>
    obtain ⟨a, ha, rfl⟩ := jump_inv h
    exact .branched (.inr rfl) ha
  | call =>
    obtain ⟨m, a, hm, ha, rfl⟩ := execCall_inv h
    exact .called hm ha
  | ret =>
    obtain ⟨v, hv, rfl⟩ := execRet_inv h
    exact .returned hv
  | halt => exact Host.Outcome.next.inj h ▸ .stopped

/-! ### The invariant -/

/-- An instruction that completes keeps data memory canonical (R50). -/
theorem Completed.dmem_wf {s t : State} {i : Instr} (h : Completed s i t) (hm : s.dmem.wf = true) : t.dmem.wf = true := by
  cases h with
  | stored hw => exact memWrite_wf hm hw
  | called hw => exact stackWrite_wf hm hw
  | _ => exact hm

/-- The flags beside a result never have `N` and `Z` both set (R143). -/
theorem withResultFlags_not_n_and_z (p : AluPart) : ¬((withResultFlags p).2.n = true ∧ (withResultFlags p).2.z = true) :=
  fun ⟨hn, hz⟩ => ne_zero_of_msb hn (of_decide_eq_true hz)

/-- An instruction that completes keeps `N` and `Z` from both being set (R143). -/
theorem Completed.flags_not_n_and_z {s t : State} {i : Instr} (h : Completed s i t)
    (hf : ¬(s.flags.n = true ∧ s.flags.z = true)) : ¬(t.flags.n = true ∧ t.flags.z = true) := by
  cases h with
  | computed p => exact withResultFlags_not_n_and_z p
  | _ => exact hf

/-- `sp` names a slot of the stack region or the Word below it (R193, R194). -/
def StackPointerInv (c : Config) (sp : Word) : Prop := c.stackLo.toNat ≤ sp.toNat + 1 ∧ sp.toNat ≤ c.stackHi.toNat

/-- The stack region as an interval of the naturals. -/
theorem inStackRegion_natCast_iff {c : Config} {a : Nat} :
    inStackRegion c a = true ↔ c.stackLo.toNat ≤ a ∧ a ≤ c.stackHi.toNat := by
  rw [inStackRegion_iff, Int.ofNat_le, Int.ofNat_le]

/-- The region begins above address 0, so that a slot has a Word below it (R53). -/
theorem toNat_sub_one_of_slot {c : Config} {sp : Word} (hc : c.wf = true) (h : inStackRegion c sp.toNat = true) :
    (sp - 1).toNat = sp.toNat - 1 ∧ 0 < sp.toNat := by
  obtain ⟨hlo, -⟩ := stack_bounds_of_wf hc
  obtain ⟨h1, -⟩ := inStackRegion_natCast_iff.mp h
  have hpos : 0 < sp.toNat := by omega
  exact ⟨by bv_omega, hpos⟩

/-- A CALL that finds its slot in the region leaves `sp` one down: the region begins above address 0 (R53, R193). -/
theorem StackPointerInv.push {c : Config} {sp : Word} (hc : c.wf = true) (h : inStackRegion c sp.toNat = true) :
    StackPointerInv c (sp - 1) := by
  obtain ⟨hpred, hpos⟩ := toNat_sub_one_of_slot hc h
  obtain ⟨hlo, hhi⟩ := inStackRegion_natCast_iff.mp h
  unfold StackPointerInv
  omega

/-- A Word popped from the region leaves `sp` at its slot (R194). -/
theorem StackPointerInv.pop {c : Config} {a : Int} (h : inStackRegion c a = true) : StackPointerInv c (wordOfInt a) := by
  obtain ⟨h1, h2⟩ := inStackRegion_iff.mp h
  have hval := toNat_wordOfInt a
  have hlt := c.stackHi.isLt
  unfold StackPointerInv
  omega

/-- An instruction that completes keeps `sp` at the stack region (R193, R194). -/
theorem Completed.stackPointerInv {s t : State} {i : Instr} (h : Completed s i t) (hc : s.cfg.wf = true)
    (hsp : StackPointerInv s.cfg s.sp) : StackPointerInv s.cfg t.sp := by
  cases h with
  | called hm => exact .push hc (stackWrite_ok hm).1
  | returned hv => exact .pop (stackRead_ok hv).1
  | _ => exact hsp

/-- The latch after decode is the decode of `ir` (R32). -/
theorem latchOf_of_decode {om : Opmap} {w : Word} {i : Instr} (h : decode om w = .ok i) :
    latchOf om w = some (decodedRecord w i) := by
  simp [latchOf, h]

/-- A completed tick that executes an instruction keeps the invariant. -/
theorem MachineInv.of_executes {s s' t : State} {i : Instr} (h : MachineInv s) (he : Executes s i s')
    (hx : exec i s' = .next t) : MachineInv t := by
  obtain ⟨hd, rfl⟩ := he.inv
  obtain ⟨hir, hdec, him, hcfg⟩ := exec_fixedKept hx
  have hdone := exec_completed hx
  refine ⟨hcfg ▸ h.config, him ▸ h.imem, hdone.dmem_wf h.dmem, ?_, ?_, hdone.flags_not_n_and_z h.flags⟩
  · rw [hdec, hir, hcfg]
    exact (latchOf_of_decode hd).symm
  · rw [hcfg]
    exact hdone.stackPointerInv h.config h.stack

/-- Settles O5: a tick leaves a halted core as it is, and otherwise completes an instruction, whose kinds of effect each keep
every clause. -/
theorem everyStepKeepsTheInvariant : Obligations.EveryStepKeepsTheInvariant := by
  intro s t h hstep
  obtain ⟨-, rfl⟩ | ⟨i, s', he, hx⟩ := step_inv hstep
  · exact h
  · exact h.of_executes he hx

end Sys2Proof.Machine
end

section
/-! PROOFS. What a tick may touch, instruction by instruction (R126), and who writes data memory (R53, R58). -/

namespace Sys2Proof.Machine

/-! ### What a tick may touch -/

/-- A register write keeps every other register. -/
theorem regsKeptBut_setReg (s : State) (r : Reg) (v : Word) : RegsKeptBut (some r) s (s.setReg r v) := by
  obtain ⟨⟨hregs, -⟩, -⟩ := onlyReg_setReg s r v
  exact hregs

/-- An instruction writes only the register of R24. -/
theorem Completed.regsKeptBut {s t : State} {i : Instr} (h : Completed s i t) : RegsKeptBut (regWritten i) s t := by
  cases h with
  | moved v _ hr => exact hr ▸ regsKeptBut_setReg s _ v
  | computed p _ hr => exact hr ▸ regsKeptBut_setReg s _ _
  | _ => exact fun _ _ => rfl

/-- An instruction writes only the data address of R126. -/
theorem Completed.memKeptBut {s t : State} {i : Instr} (h : Completed s i t) : MemKeptBut (addressStored i s) s t := by
  cases h with
  | stored hm =>
    intro k hk
    obtain ⟨hin, -, rfl⟩ := memWrite_ok hm
    have h0 := (inAddressSpace_iff.mp hin).1
    exact Memory.read_write_of_ne _ _ fun e => hk (congrArg some (by rw [e, Int.toNat_of_nonneg h0]))
  | called hm =>
    intro k hk
    obtain ⟨-, rfl⟩ := stackWrite_ok hm
    exact Memory.read_write_of_ne _ _ fun e => hk (congrArg (fun n : Nat => some (n : Int)) e)
  | _ => exact fun _ _ => rfl

/-- Only an ALU instruction writes the flags (R29). -/
theorem Completed.flags_eq {s t : State} {i : Instr} (h : Completed s i t) (hi : usesAlu i.mnemonic = false) :
    t.flags = s.flags := by
  cases h with
  | computed p hu => cases hu.symm.trans hi
  | _ => rfl

/-- Only HALT writes the run state (R33). -/
theorem exec_halted {s t : State} {i : Instr} (h : exec i s = .next t) :
    t.halted = (s.halted || decide (i.mnemonic = .HALT)) := by
  by_cases hi : i = .halt
  · subst hi
    rw [exec_halt_halted h]
    exact (Bool.or_true _).symm
  · have hm : i.mnemonic ≠ .HALT := fun e => hi (by
      cases i with
      | halt => rfl
      | _ => cases e)
    rw [exec_halted_of_ne_halt hi h, decide_eq_false hm, Bool.or_false]

/-- The address after a pop is the popped slot (R194). -/
theorem wordOfInt_popAddress (s : State) : wordOfInt (popAddress s) = s.sp + 1 := by
  simp [popAddress, wordOfInt, BitVec.ofInt_add]

/-- Only CALL and RET write `sp` (R28). -/
theorem Completed.sp_eq {s t : State} {i : Instr} (h : Completed s i t) (hcall : i.mnemonic ≠ .CALL)
    (hret : i.mnemonic ≠ .RET) : t.sp = s.sp := by
  cases h with
  | called => exact absurd rfl hcall
  | returned => exact absurd rfl hret
  | _ => rfl

/-- The one instruction of the mnemonic CALL. -/
theorem eq_call_of_mnemonic {i : Instr} (h : i.mnemonic = .CALL) : ∃ off, i = .call off := by
  cases i with
  | call off => exact ⟨off, rfl⟩
  | _ => cases h

/-- The one instruction of the mnemonic RET. -/
theorem eq_ret_of_mnemonic {i : Instr} (h : i.mnemonic = .RET) : i = .ret := by
  cases i with
  | ret => rfl
  | _ => cases h

/-- CALL moves `sp` one Word down (R193). -/
theorem exec_call_sp {off : BitVec 8} {s t : State} (h : exec (.call off) s = .next t) : t.sp = s.sp - 1 := by
  obtain ⟨m, a, -, -, rfl⟩ := execCall_inv h
  rfl

/-- RET moves `sp` one Word up (R194). -/
theorem exec_ret_sp {s t : State} (h : exec .ret s = .next t) : t.sp = s.sp + 1 := by
  obtain ⟨v, -, rfl⟩ := execRet_inv h
  exact wordOfInt_popAddress s

/-- RET goes to the Word it pops (R194). -/
theorem exec_ret_pc {s t : State} (h : exec .ret s = .next t) : t.pc = s.dmem.read (s.sp.toNat + 1) := by
  obtain ⟨v, hv, rfl⟩ := execRet_inv h
  exact (stackRead_ok hv).2

/-- BEQ and BNE fall through or go to their target (R191, R192). -/
theorem exec_pc_of_BC {i : Instr} {s t : State} (hi : i.mnemonic.format = .BC) (h : exec i s = .next t) :
    t.pc = s.pc ∨ ∃ ra off, (i = .beq ra off ∨ i = .bne ra off) ∧ branchTarget s.cfg s.pc off = .ok t.pc := by
  cases i with
  | beq ra off =>
    obtain ⟨-, hj⟩ | ⟨-, rfl⟩ := execBeq_inv (ra := ra) h
    · obtain ⟨a, ha, rfl⟩ := jump_inv hj
      exact .inr ⟨ra, off, .inl rfl, ha⟩
    · exact .inl rfl
  | bne ra off =>
    obtain ⟨-, rfl⟩ | ⟨-, hj⟩ := execBne_inv (ra := ra) h
    · exact .inl rfl
    · obtain ⟨a, ha, rfl⟩ := jump_inv hj
      exact .inr ⟨ra, off, .inr rfl, ha⟩
  | _ => cases hi

/-- B and CALL go to their target (R193, R196). -/
theorem exec_pc_of_BU {i : Instr} {s t : State} (hi : i.mnemonic.format = .BU) (h : exec i s = .next t) :
    ∃ off, (i = .b off ∨ i = .call off) ∧ branchTarget s.cfg s.pc off = .ok t.pc := by
  cases i with
  | b off =>
    obtain ⟨a, ha, rfl⟩ := jump_inv h
    exact ⟨off, .inl rfl, ha⟩
  | call off =>
    obtain ⟨m, a, -, ha, rfl⟩ := execCall_inv h
    exact ⟨off, .inr rfl, ha⟩
  | _ => cases hi

/-- Every other instruction but RET leaves the program counter at `seq` (R26). -/
theorem Completed.pc_eq {s t : State} {i : Instr} (h : Completed s i t) (hbc : i.mnemonic.format ≠ .BC)
    (hbu : i.mnemonic.format ≠ .BU) (hret : i.mnemonic ≠ .RET) : t.pc = s.pc := by
  cases h with
  | branched hi =>
    obtain ⟨ra, rfl | rfl⟩ | rfl := hi
    · exact absurd rfl hbc
    · exact absurd rfl hbc
    · exact absurd rfl hbu
  | called => exact absurd rfl hbu
  | returned => exact absurd rfl hret
  | _ => rfl

/-- Settles O48: fetch and decode write `ir`, `dec` and `pc`; what the instruction then writes, field by field. -/
theorem sideEffectsAreConfined : Obligations.SideEffectsAreConfined := by
  refine ⟨fun s s' i he => ?_, fun i s t h => ?_⟩
  · obtain ⟨-, rfl⟩ := he.inv
    exact ⟨rfl, rfl⟩
  · have hdone := exec_completed h
    refine ⟨hdone.regsKeptBut, hdone.memKeptBut, exec_fixedKept h, hdone.flags_eq, exec_halted h, fun hi => ?call,
      fun hi => ?ret, hdone.sp_eq, fun hi => exec_pc_of_BC hi h, fun hi => exec_pc_of_BU hi h, fun hi => ?pop, hdone.pc_eq⟩
    case call =>
      obtain ⟨off, rfl⟩ := eq_call_of_mnemonic hi
      exact exec_call_sp h
    case ret =>
      obtain rfl := eq_ret_of_mnemonic hi
      exact exec_ret_sp h
    case pop =>
      obtain rfl := eq_ret_of_mnemonic hi
      exact exec_ret_pc h

/-! ### Who writes data memory and the flags -/

/-- An instruction that stores to the stack region is CALL, any other that stores is STORE (R53, R58). -/
theorem Completed.stores {s t : State} {i : Instr} (h : Completed s i t) {a : Nat} (ha : t.dmem.read a ≠ s.dmem.read a) :
    ((∃ off, i = .call off) ∧ a = s.sp.toNat ∧ inStackRegion s.cfg a = true) ∨
    ∃ f1 f2 d, i = .store f1 f2 d ∧ storeAddress f1 f2 d s = a ∧ inStackRegion s.cfg a = false := by
  have hstored : some (a : Int) = addressStored i s := by
    by_contra hne
    exact ha (h.memKeptBut a hne)
  cases h with
  | @called off m _ hm =>
    obtain rfl : a = s.sp.toNat := Int.ofNat.inj (Option.some.inj hstored)
    exact .inl ⟨⟨off, rfl⟩, rfl, (stackWrite_ok hm).1⟩
  | @stored f1 f2 d m hm =>
    have hea : (a : Int) = storeAddress f1 f2 d s := Option.some.inj hstored
    exact .inr ⟨f1, f2, d, rfl, hea.symm, hea ▸ (memWrite_ok hm).2.1⟩
  | _ => exact absurd rfl ha

/-- A tick that changes a Word of data memory executes a CALL that stores in the stack region, or a STORE that stores outside
it (R53, R58). -/
theorem step_stores {s t : State} (h : step s = .next t) {a : Nat} (ha : t.dmem.read a ≠ s.dmem.read a) :
    ((∃ off s', Executes s (.call off) s') ∧ a = s.sp.toNat ∧ inStackRegion s.cfg a = true) ∨
    ((∃ f1 f2 d s', Executes s (.store f1 f2 d) s' ∧ storeAddress f1 f2 d s' = a) ∧ inStackRegion s.cfg a = false) := by
  obtain ⟨-, rfl⟩ | ⟨i, s', he, hx⟩ := step_inv h
  · exact absurd rfl ha
  · obtain ⟨-, rfl⟩ := he.inv
    obtain ⟨⟨off, rfl⟩, hsp, hin⟩ | ⟨f1, f2, d, rfl, hea, hout⟩ := (exec_completed hx).stores ha
    · exact .inl ⟨⟨off, _, he⟩, hsp, hin⟩
    · exact .inr ⟨⟨f1, f2, d, _, he, hea⟩, hout⟩

/-- Settles O49: a CALL stores inside the region and a STORE outside it. -/
theorem onlyCallWritesTheStackRegion : Obligations.OnlyCallWritesTheStackRegion := by
  intro s t a h ha
  rw [← inStackRegion_natCast_iff]
  obtain ⟨⟨off, s', he⟩, hsp, hin⟩ | ⟨hstore, hout⟩ := step_stores h ha
  · exact ⟨fun _ => ⟨off, s', he, hsp⟩, fun hn => absurd hin hn⟩
  · exact ⟨fun hin => (by rw [hout] at hin; cases hin), fun _ => hstore⟩

end Sys2Proof.Machine
end

section
/-! PROOFS. Decode and encode invert each other (R99): the fields of a Word as numbers, the Word of an instruction cut up
again, and the Word of the fields cut out. -/

namespace Sys2Proof.Machine

open Sys2Proof.Laws.EncodedLayout (fieldBits)

/-! ### The fields of a Word as numbers -/

/-- The immediate or offset in bits 8:1, as arithmetic (R86, R90). -/
theorem field8_eq_bitsAt (w : Word) : field8 w = bitsAt 8 1 w.toNat := extractLsb'_eq_bitsAt 8 1 w

/-- The offset in bits 11:4, as arithmetic (R91). -/
theorem offsetBU_eq_bitsAt (w : Word) : offsetBU w = bitsAt 8 4 w.toNat := extractLsb'_eq_bitsAt 8 4 w

/-- The opcode as a number (R81). -/
theorem opcodeField_toNat (w : Word) : (opcodeField w).toNat = w.toNat / 4096 := by
  rw [opcodeField_eq, BitVec.toNat_ofNat]
  omega

/-- Bits 11:9 as a number. -/
theorem firstReg_val (w : Word) : (firstReg w).val = w.toNat / 512 % 8 := congrArg Fin.val (firstReg_eq_regAt w)

/-- Bits 8:6 as a number. -/
theorem secondReg_val (w : Word) : (secondReg w).val = w.toNat / 64 % 8 := congrArg Fin.val (secondReg_eq_regAt w)

/-- Bits 5:3 as a number. -/
theorem thirdReg_val (w : Word) : (thirdReg w).val = w.toNat / 8 % 8 := congrArg Fin.val (thirdReg_eq_regAt w)

/-- Bits 8:1 as a number. -/
theorem field8_toNat (w : Word) : (field8 w).toNat = w.toNat / 2 % 256 := congrArg BitVec.toNat (field8_eq_bitsAt w)

/-- Bits 5:0 as a number. -/
theorem field6_toNat (w : Word) : (field6 w).toNat = w.toNat % 64 := by
  rw [field6_eq_bitsAt, bitsAt, BitVec.toNat_ofNat, pow_zero, Nat.div_one]

/-- Bits 11:4 as a number. -/
theorem offsetBU_toNat (w : Word) : (offsetBU w).toNat = w.toNat / 16 % 256 := congrArg BitVec.toNat (offsetBU_eq_bitsAt w)

/-! ### Decode of encode -/

/-- The opcode of an instruction's Word (R98). -/
theorem opcodeField_encode (om : Opmap) (i : Instr) : opcodeField (encode om i) = om.opcodeOf i.mnemonic := by
  obtain ⟨hword, hlt, -⟩ := encodedLayout i
  refine BitVec.eq_of_toNat_eq ?_
  rw [opcodeField_toNat, hword om]
  omega

/-- A zero field lies below the opcode (R94). -/
theorem zeroWidth_le (f : Format) : f.zeroWidth ≤ 12 := by
  cases f <;> decide

/-- The zero field of an instruction's Word is 0 (R98). -/
theorem zeroField_encode (om : Opmap) (i : Instr) : zeroField i.mnemonic.format (encode om i) = 0 := by
  obtain ⟨hword, -, hzero⟩ := encodedLayout i
  have hop : 2 ^ i.mnemonic.format.zeroWidth ∣ (om.opcodeOf i.mnemonic).toNat * 2 ^ 12 :=
    (pow_dvd_pow 2 (zeroWidth_le _)).mul_left _
  rw [zeroField, hword om]
  exact Nat.mod_eq_zero_of_dvd (hop.add (Nat.dvd_of_mod_eq_zero hzero))

/-- The fields cut out of a Word that holds an instruction's fields below its opcode are that instruction (R84, R98). -/
theorem cutFields_of_toNat_eq {w : Word} {k : Nat} {i : Instr} (h : w.toNat = k * 4096 + fieldBits i) :
    cutFields i.mnemonic w = i := by
  cases i with
  | loadi r imm | lui r imm | beq r imm | bne r imm =>
    simp only [fieldBits] at h
    have hr : firstReg w = r := Fin.ext (by rw [firstReg_val]; omega)
    have himm : field8 w = imm := BitVec.eq_of_toNat_eq (by rw [field8_toNat]; omega)
    simp only [Instr.mnemonic, cutFields, hr, himm]
  | load p q imm | store p q imm | addi p q imm =>
    simp only [fieldBits] at h
    have hp : firstReg w = p := Fin.ext (by rw [firstReg_val]; omega)
    have hq : secondReg w = q := Fin.ext (by rw [secondReg_val]; omega)
    have himm : field6 w = imm := BitVec.eq_of_toNat_eq (by rw [field6_toNat]; omega)
    simp only [Instr.mnemonic, cutFields, hp, hq, himm]
  | add rd ra rb | sub rd ra rb | and rd ra rb | or rd ra rb | shft rd ra rb =>
    simp only [fieldBits] at h
    have hd : firstReg w = rd := Fin.ext (by rw [firstReg_val]; omega)
    have ha : secondReg w = ra := Fin.ext (by rw [secondReg_val]; omega)
    have hb : thirdReg w = rb := Fin.ext (by rw [thirdReg_val]; omega)
    simp only [Instr.mnemonic, cutFields, hd, ha, hb]
  | b off | call off =>
    simp only [fieldBits] at h
    have hoff : offsetBU w = off := BitVec.eq_of_toNat_eq (by rw [offsetBU_toNat]; omega)
    simp only [Instr.mnemonic, cutFields, hoff]
  | ret | halt => rfl

/-- Decode inverts encode, under every admitted `OPMAP` (R99). -/
theorem decode_encode {om : Opmap} (h : Opmap.wf om = true) (i : Instr) : decode om (encode om i) = .ok i := by
  obtain ⟨hword, -, -⟩ := encodedLayout i
  rw [decode, opcodeField_encode, Opmap.mnemonicOf_opcodeOf h, if_pos (zeroField_encode om i),
    cutFields_of_toNat_eq (hword om)]

/-! ### Encode of decode -/

/-- All that the decoder can do when it answers an instruction (R84). -/
theorem decode_ok {om : Opmap} {w : Word} {i : Instr} (h : decode om w = .ok i) :
    zeroField (om.mnemonicOf (opcodeField w)).format w = 0 ∧ i = cutFields (om.mnemonicOf (opcodeField w)) w := by
  simp only [decode] at h
  split at h
  · next hz => exact ⟨hz, (Except.ok.inj h).symm⟩
  · cases h

/-- With a zero field of 0, the fields cut out of a Word are all of its bits below the opcode (R86 to R92). -/
theorem fieldBits_cutFields {m : Mnemonic} {w : Word} (h : zeroField m.format w = 0) :
    fieldBits (cutFields m w) = w.toNat % 4096 := by
  cases m with
  | _ =>
    simp only [zeroField, Mnemonic.format, Format.zeroWidth] at h
    simp only [cutFields, fieldBits, firstReg_val, secondReg_val, thirdReg_val, field8_toNat, field6_toNat, offsetBU_toNat]
    omega

/-- Encode inverts decode on every legal Word, under every admitted `OPMAP` (R99). -/
theorem encode_of_decode {om : Opmap} (h : Opmap.wf om = true) {w : Word} {i : Instr} (hd : decode om w = .ok i) :
    encode om i = w := by
  obtain ⟨hz, rfl⟩ := decode_ok hd
  obtain ⟨hword, -, -⟩ := encodedLayout (cutFields (om.mnemonicOf (opcodeField w)) w)
  refine BitVec.eq_of_toNat_eq ?_
  rw [hword om, cutFields_mnemonic, Opmap.opcodeOf_mnemonicOf h, opcodeField_toNat, fieldBits_cutFields hz]
  exact Nat.div_add_mod' w.toNat 4096

/-- Settles O16: each direction by its own lemma. -/
theorem decodeInvertsEncode : Obligations.DecodeInvertsEncode := fun _ h =>
  ⟨decode_encode h, fun _ _ => encode_of_decode h⟩

/-- Settles O15: each Word decodes to its instruction by evaluation. -/
theorem tableWordsDecode : Obligations.TableWordsDecode :=
  ⟨rfl, rfl, rfl, rfl, rfl, rfl, rfl, rfl, rfl, rfl, rfl, rfl, rfl, rfl, rfl, rfl⟩

/-! ### Operands in range -/

/-- Operands in range for I8: a register and an unsigned immediate (R99). -/
theorem operandsInRange_I8 {ops : List Int} (h : operandsInRange .I8 ops = true) :
    ∃ p v, ops = [p, v] ∧ (0 ≤ p ∧ p ≤ 7) ∧ 0 ≤ v ∧ v ≤ 255 := by
  obtain _ | ⟨p, _ | ⟨v, _ | _⟩⟩ := ops
  case cons.cons.nil => exact ⟨p, v, rfl, by simpa [operandsInRange, regInRange, within] using h⟩
  all_goals cases h

/-- Operands in range for I6 and M: two registers and a signed immediate (R99). -/
theorem operandsInRange_I6_M {f : Format} (hf : f = .I6 ∨ f = .M) {ops : List Int} (h : operandsInRange f ops = true) :
    ∃ p q v, ops = [p, q, v] ∧ (0 ≤ p ∧ p ≤ 7) ∧ (0 ≤ q ∧ q ≤ 7) ∧ -32 ≤ v ∧ v ≤ 31 := by
  obtain _ | ⟨p, _ | ⟨q, _ | ⟨v, _ | _⟩⟩⟩ := ops
  case cons.cons.cons.nil =>
    obtain rfl | rfl := hf <;>
      exact ⟨p, q, v, rfl, by simpa [operandsInRange, regInRange, within, and_assoc] using h⟩
  all_goals obtain rfl | rfl := hf <;> cases h

/-- Operands in range for R: three registers (R99). -/
theorem operandsInRange_R {ops : List Int} (h : operandsInRange .R ops = true) :
    ∃ p q r, ops = [p, q, r] ∧ (0 ≤ p ∧ p ≤ 7) ∧ (0 ≤ q ∧ q ≤ 7) ∧ 0 ≤ r ∧ r ≤ 7 := by
  obtain _ | ⟨p, _ | ⟨q, _ | ⟨r, _ | _⟩⟩⟩ := ops
  case cons.cons.cons.nil => exact ⟨p, q, r, rfl, by simpa [operandsInRange, regInRange, within, and_assoc] using h⟩
  all_goals cases h

/-- Operands in range for BC: a register and a signed offset (R99). -/
theorem operandsInRange_BC {ops : List Int} (h : operandsInRange .BC ops = true) :
    ∃ p v, ops = [p, v] ∧ (0 ≤ p ∧ p ≤ 7) ∧ -128 ≤ v ∧ v ≤ 127 := by
  obtain _ | ⟨p, _ | ⟨v, _ | _⟩⟩ := ops
  case cons.cons.nil => exact ⟨p, v, rfl, by simpa [operandsInRange, regInRange, within] using h⟩
  all_goals cases h

/-- Operands in range for BU: a signed offset (R99). -/
theorem operandsInRange_BU {ops : List Int} (h : operandsInRange .BU ops = true) :
    ∃ v, ops = [v] ∧ -128 ≤ v ∧ v ≤ 127 := by
  obtain _ | ⟨v, _ | _⟩ := ops
  case cons.nil => exact ⟨v, rfl, by simpa [operandsInRange, within] using h⟩
  all_goals cases h

/-- Operands in range for O: none (R99). -/
theorem operandsInRange_O {ops : List Int} (h : operandsInRange .O ops = true) : ops = [] := by
  cases ops with
  | nil => rfl
  | cons => cases h

/-- An unsigned immediate in range survives masking (R99). -/
theorem toNat_ofInt_of_mem {v : Int} (h0 : 0 ≤ v) (h1 : v ≤ 255) : ((BitVec.ofInt 8 v).toNat : Int) = v := by
  have hmask := toNat_ofInt_cast 8 v
  omega

/-- A signed immediate in range survives masking (R99). -/
theorem toInt_ofInt_of_mem {n : Nat} {v : Int} (h0 : -2 ^ n ≤ v) (h1 : v < 2 ^ n) :
    (BitVec.ofInt (n + 1) v).toInt = v :=
  BitVec.toInt_ofInt_eq_self (by omega) (by simpa using h0) (by simpa using h1)

/-- Operands in range are accepted as an instruction of the mnemonic with those operands (R98, R99). -/
theorem assembleInstr_of_inRange {m : Mnemonic} {ops : List Int} (h : operandsInRange m.format ops = true) :
    ∃ i, assembleInstr m ops = .ok i ∧ i.mnemonic = m ∧ i.operands = ops := by
  cases m with
  | LOADI | LUI =>
    obtain ⟨p, v, rfl, hp, h0, h1⟩ := operandsInRange_I8 h
    obtain ⟨x, hx, rfl⟩ := regOperand_of_mem hp
    simp only [assembleInstr, hx]
    exact ⟨_, rfl, rfl, by simp only [Instr.operands, toNat_ofInt_of_mem h0 h1]⟩
  | ADDI | LOAD | STORE =>
    obtain ⟨p, q, v, rfl, hp, hq, h0, h1⟩ := operandsInRange_I6_M (by simp [Mnemonic.format]) h
    obtain ⟨x, hx, rfl⟩ := regOperand_of_mem hp
    obtain ⟨y, hy, rfl⟩ := regOperand_of_mem hq
    simp only [assembleInstr, hx, hy]
    exact ⟨_, rfl, rfl, by simp only [Instr.operands, toInt_ofInt_of_mem (n := 5) h0 (by omega)]⟩
  | ADD | SUB | AND | OR | SHFT =>
    obtain ⟨p, q, r, rfl, hp, hq, hr⟩ := operandsInRange_R h
    obtain ⟨x, hx, rfl⟩ := regOperand_of_mem hp
    obtain ⟨y, hy, rfl⟩ := regOperand_of_mem hq
    obtain ⟨z, hz, rfl⟩ := regOperand_of_mem hr
    simp only [assembleInstr, hx, hy, hz]
    exact ⟨_, rfl, rfl, rfl⟩
  | BEQ | BNE =>
    obtain ⟨p, v, rfl, hp, h0, h1⟩ := operandsInRange_BC h
    obtain ⟨x, hx, rfl⟩ := regOperand_of_mem hp
    simp only [assembleInstr, hx]
    exact ⟨_, rfl, rfl, by simp only [Instr.operands, toInt_ofInt_of_mem (n := 7) h0 (by omega)]⟩
  | B | CALL =>
    obtain ⟨v, rfl, h0, h1⟩ := operandsInRange_BU h
    exact ⟨_, rfl, rfl, by simp only [Instr.operands, toInt_ofInt_of_mem (n := 7) h0 (by omega)]⟩
  | RET | HALT =>
    obtain rfl := operandsInRange_O h
    exact ⟨_, rfl, rfl, rfl⟩

/-- Settles O17: the operands are accepted as an instruction with those operands, which its Word decodes to. -/
theorem inRangeOperandsSurviveEncoding : Obligations.InRangeOperandsSurviveEncoding := by
  intro om m ops hom hops
  obtain ⟨i, hi, hm, hoper⟩ := assembleInstr_of_inRange hops
  exact ⟨encode om i, i, by rw [assemble, hi], decode_encode hom i, hm, hoper⟩

end Sys2Proof.Machine
end

section
/-! PROOFS. How many Words are legal (R97): the Words are counted opcode by opcode, and a bijective `OPMAP` gives each mnemonic
one opcode. -/

namespace Sys2Proof.Machine

/-! ### Counting -/

/-- Counting below `n * b` block by block. -/
theorem count_mul (p : Nat → Prop) [DecidablePred p] (n b : Nat) :
    Nat.count p (n * b) = ∑ k ∈ Finset.range n, Nat.count (fun j => p (k * b + j)) b := by
  induction n with
  | zero => simp
  | succ n ih => rw [Nat.succ_mul, Nat.count_add, ih, Finset.sum_range_succ]

/-- Predicates that agree below `n` are counted alike below `n`. -/
theorem count_congr_of_lt {p q : Nat → Prop} [DecidablePred p] [DecidablePred q] {n : Nat} (h : ∀ k < n, p k ↔ q k) :
    Nat.count p n = Nat.count q n := by
  rw [Nat.count_eq_card_filter_range, Nat.count_eq_card_filter_range,
    Finset.filter_congr fun k hk => h k (Finset.mem_range.mp hk)]

/-! ### The legal Words of one opcode -/

/-- How many of the 4096 Words of one opcode have a zero field of 0. -/
def legalPerOpcode (m : Mnemonic) : Nat := 4096 / 2 ^ m.format.zeroWidth

/-- The Words of one opcode with a zero field of 0, counted (R94). -/
theorem count_zeroField (m : Mnemonic) :
    Nat.count (fun j => j % 2 ^ m.format.zeroWidth = 0) 4096 = legalPerOpcode m := by
  have hdvd : 4096 % 2 ^ m.format.zeroWidth = 0 :=
    Nat.mod_eq_zero_of_dvd (pow_dvd_pow 2 (zeroWidth_le m.format) : _ ∣ 2 ^ 12)
  calc Nat.count (fun j => j % 2 ^ m.format.zeroWidth = 0) 4096
      = Nat.count (· ≡ 0 [MOD 2 ^ m.format.zeroWidth]) 4096 := count_congr_of_lt fun j _ => by simp [Nat.ModEq]
    _ = legalPerOpcode m := by simp [Nat.count_modEq_card 4096 (Nat.two_pow_pos _), hdvd, legalPerOpcode]

/-- A Word decodes exactly when its zero field is 0 (R94). -/
theorem decode_isOk_iff (om : Opmap) (w : Word) :
    (decode om w).isOk = true ↔ zeroField (om.mnemonicOf (opcodeField w)).format w = 0 := by
  rw [← zeroBitsSet_eq_false_iff]
  cases hz : zeroBitsSet (om.mnemonicOf (opcodeField w)) w with
  | false => simp [decode_of_legal hz, Except.isOk, Except.toBool]
  | true => simp [decode_of_illegal hz, Except.isOk, Except.toBool]

/-- Whether the Word with opcode `k` and lower bits `j` is legal depends on the mnemonic of `k` and the lower bits alone. -/
theorem decode_isOk_iff_of_lt (om : Opmap) {k j : Nat} (hk : k < 16) (hj : j < 4096) :
    (decode om (BitVec.ofNat 16 (k * 4096 + j))).isOk = true ↔ j % 2 ^ om[k].format.zeroWidth = 0 := by
  have hval : (BitVec.ofNat 16 (k * 4096 + j)).toNat = k * 4096 + j := by
    rw [BitVec.toNat_ofNat]
    omega
  have hop : om.mnemonicOf (opcodeField (BitVec.ofNat 16 (k * 4096 + j))) = om[k] := by
    have hfield : (opcodeField (BitVec.ofNat 16 (k * 4096 + j))).toNat = k := by
      rw [opcodeField_toNat, hval]
      omega
    simp only [Opmap.mnemonicOf, Fin.getElem_fin, BitVec.val_toFin, hfield]
  have hlow : 2 ^ om[k].format.zeroWidth ∣ k * 4096 := Dvd.dvd.mul_left (pow_dvd_pow 2 (zeroWidth_le _) : _ ∣ 2 ^ 12) k
  rw [decode_isOk_iff, hop, zeroField, hval, Nat.add_mod, Nat.mod_eq_zero_of_dvd hlow, Nat.zero_add, Nat.mod_mod]

/-- The legal Words of opcode `k`, counted. -/
theorem count_legal_of_opcode (om : Opmap) {k : Nat} (hk : k < 16) :
    Nat.count (fun j => (decode om (BitVec.ofNat 16 (k * 4096 + j))).isOk = true) 4096 = legalPerOpcode om[k] :=
  (count_congr_of_lt fun _ hj => decode_isOk_iff_of_lt om hk hj).trans (count_zeroField om[k])

/-! ### The legal Words of all opcodes -/

/-- An admitted `OPMAP` lists each mnemonic once (R85). -/
theorem opmap_perm_all {om : Opmap} (h : Opmap.wf om = true) : om.toList.Perm Mnemonic.all :=
  ((of_decide_eq_true h : om.toList.Nodup).subperm fun m _ => m.mem_all).perm_of_length_le (by simp [Mnemonic.all])

/-- A sum over the opcodes is a sum over the entries of `OPMAP`. -/
theorem sum_range_opmap (om : Opmap) (g : Mnemonic → Nat) (h : Nat → Nat) (hg : ∀ k (hk : k < 16), h k = g om[k]) :
    ∑ k ∈ Finset.range 16, h k = (om.toList.map g).sum := by
  calc ∑ k ∈ Finset.range 16, h k
      = ∑ k ∈ Finset.range om.toList.length, h k := by rw [Vector.length_toList]
    _ = ∑ k : Fin om.toList.length, h k := Finset.sum_range h
    _ = ∑ k : Fin om.toList.length, g om.toList[k] :=
        Finset.sum_congr rfl fun k _ => hg k (k.isLt.trans_eq Vector.length_toList)
    _ = (om.toList.map g).sum := Fin.sum_univ_fun_getElem om.toList g

/-- The legal Words of the 16 mnemonics together. -/
theorem sum_legalPerOpcode_all : (Mnemonic.all.map legalPerOpcode).sum = 23554 := by decide

/-- Settles O14: counted opcode by opcode, the legal Words are those of the 16 mnemonics together. -/
theorem legalWordsNumber23554 : Obligations.LegalWordsNumber23554 := by
  intro om hom
  calc ((List.range 65536).filter fun n => (decode om (BitVec.ofNat 16 n)).isOk).length
      = Nat.count (fun n => (decode om (BitVec.ofNat 16 n)).isOk = true) (16 * 4096) := by
        simp [Nat.count, List.countP_eq_length_filter]
    _ = (om.toList.map legalPerOpcode).sum := by
        rw [count_mul]
        exact sum_range_opmap om legalPerOpcode _ fun k hk => count_legal_of_opcode om hk
    _ = (Mnemonic.all.map legalPerOpcode).sum := ((opmap_perm_all hom).map _).sum_eq
    _ = 23554 := sum_legalPerOpcode_all

end Sys2Proof.Machine
end

section
/-! PROOFS. Construction (R36, R230 to R232): what loading a program and data leaves in each memory, and that the constructed
machine meets the invariant. -/

namespace Sys2Proof.Machine

/-! ### Loading -/

/-- A write of the load phase inside the space is the write to the address space (R51). -/
theorem imemWrite_loading {a : Int} (ha : 0 ≤ a ∧ a ≤ 0xFFFF) (m : Memory) (v : Word) :
    imemWrite .loading m a v = .ok (m.write a.toNat v) :=
  if_pos (inAddressSpace_iff.mpr ha)

/-- `m'` is `m` with the Words `ws` from address `a` up. -/
def HoldsFrom (m' m : Memory) (a : Nat) (ws : List Word) : Prop :=
  (∀ (k : Nat) (h : k < ws.length), m'.read (a + k) = ws[k]) ∧
    ∀ k, k < a ∨ a + ws.length ≤ k → m'.read k = m.read k

/-- A Word written below the Words already placed. -/
theorem HoldsFrom.cons {m m' : Memory} {a : Nat} {w : Word} {ws : List Word} (hm : m.wf = true)
    (h : HoldsFrom m' (m.write a w) (a + 1) ws) : HoldsFrom m' m a (w :: ws) := by
  obtain ⟨hin, hout⟩ := h
  constructor
  · rintro (_ | k) hk
    · rw [Nat.add_zero, hout a (by omega), Memory.read_write_same hm, List.getElem_cons_zero]
    · rw [List.getElem_cons_succ, ← hin k (by simpa using hk)]
      congr 1
      omega
  · intro k hk
    rw [List.length_cons] at hk
    rw [hout k (by omega), Memory.read_write_of_ne _ _ (by omega)]

/-- A program that fits is loaded, Word by Word (R232). -/
theorem loadProgram_holdsFrom {m : Memory} {a : Nat} {ws : List Word} (hm : m.wf = true)
    (hlen : a + ws.length ≤ addressLimit) : ∃ m', loadProgram m a ws = .ok m' ∧ HoldsFrom m' m a ws := by
  induction ws generalizing m a with
  | nil => exact ⟨m, rfl, fun _ h => absurd h (Nat.not_lt_zero _), fun _ _ => rfl⟩
  | cons w ws ih =>
    simp only [List.length_cons, addressLimit] at hlen ih
    have hw := imemWrite_loading (a := a) (by omega) m w
    obtain ⟨m', hload, hholds⟩ := ih (Memory.wf_write (a := a) hm (by unfold addressLimit; omega) w) (a := a + 1) (by omega)
    refine ⟨m', ?_, hholds.cons hm⟩
    rw [loadProgram, hw]
    exact hload

/-- One more assignment is one more write. -/
theorem loadData_concat (m : Memory) (l : List (Word × Word)) (p : Word × Word) :
    loadData m (l ++ [p]) = (loadData m l).write p.1.toNat p.2 := by
  induction l generalizing m with
  | nil => rfl
  | cons q l ih => exact ih (m.write q.1.toNat q.2)

/-- One more assignment is the last one to its address. -/
theorem lastAssigned_concat (l : List (Word × Word)) (p : Word × Word) (k : Nat) :
    lastAssigned (l ++ [p]) k = if p.1.toNat = k then p.2 else lastAssigned l k := by
  by_cases h : p.1.toNat = k <;> simp [lastAssigned, h]

/-- After `DMEM_INIT` every address of data memory holds the Word last assigned to it (R36). -/
theorem loadData_read (l : List (Word × Word)) (k : Nat) : (loadData [] l).read k = lastAssigned l k := by
  induction l using List.reverseRecOn with
  | nil => rfl
  | append_singleton l p ih =>
    rw [loadData_concat, lastAssigned_concat]
    split
    · next h => rw [h, Memory.read_write_same (loadData_wf rfl l)]
    · next h => rw [Memory.read_write_of_ne _ _ (Ne.symm h), ih]

/-! ### The constructed machine -/

/-- The state constructed with instruction memory `im` (R36). -/
def constructed (c : Config) (l : Launch) (im : Memory) : State where
  x := l.regInit
  pc := 0x0000
  sp := c.stackHi
  flags := l.flagsInit
  ir := l.irInit
  dec := latchOf c.opmap l.irInit
  halted := false
  imem := im
  dmem := loadData [] l.dmemInit
  cfg := c

/-- All that construction can do when it answers a state (R36). -/
theorem construct_ok {c : Config} {l : Launch} {s : State} (h : construct c l = .ok s) :
    ∃ im, loadProgram [] 0 l.program = .ok im ∧ s = constructed c l im := by
  unfold construct at h
  split at h
  · next im him => exact ⟨im, him, (Except.ok.inj h).symm⟩
  · cases h

/-- Construction from a program that can be loaded (R36). -/
theorem construct_of_loadProgram {c : Config} {l : Launch} {im : Memory} (h : loadProgram [] 0 l.program = .ok im) :
    construct c l = .ok (constructed c l im) := by
  simp only [construct, h, constructed]

/-- Settles O2: the program stands from address 0 up, data memory holds the last assignments, the rest is the launch's own. -/
theorem constructionPlacesWhatTheLaunchGives : Obligations.ConstructionPlacesWhatTheLaunchGives := by
  intro c l hl
  have hlen : 0 + l.program.length ≤ addressLimit := by simpa [Launch.wf] using hl
  obtain ⟨im, him, hin, hout⟩ := loadProgram_holdsFrom (m := []) rfl hlen
  refine ⟨constructed c l im, construct_of_loadProgram him, rfl, rfl, rfl, fun _ => rfl, rfl, rfl, rfl, rfl,
    fun k hk => ?_, fun k hk => hout k (.inr (by omega)), loadData_read l.dmemInit⟩
  rw [← hin k hk, Nat.zero_add]
  rfl

/-- Settles O4: loading keeps both memories canonical, and `sp` starts at the top of the stack region. -/
theorem constructionMeetsTheInvariant : Obligations.ConstructionMeetsTheInvariant := by
  intro c l s hc hf h
  obtain ⟨im, him, rfl⟩ := construct_ok h
  obtain ⟨-, hbounds⟩ := stack_bounds_of_wf hc
  exact ⟨hc, loadProgram_wf rfl him, loadData_wf rfl l.dmemInit, rfl, ⟨Nat.le_succ_of_le hbounds, Nat.le_refl _⟩, hf⟩

/-- The default parameters are admitted (R6). -/
theorem defaultConfig_wf : defaultConfig.wf = true := by decide

/-- Every register is 0 at reset (D15). -/
theorem reset_getReg (r : Reg) : State.reset.getReg r = 0 := by
  revert r
  decide

/-- Settles O1: construction with nothing to load, and its values read off. -/
theorem resetIsTheDefaultConstruction : Obligations.ResetIsTheDefaultConstruction :=
  ⟨construct_of_loadProgram rfl, rfl, rfl, rfl, fun _ => rfl, fun _ => rfl, reset_getReg, rfl, rfl, rfl, rfl, rfl,
    defaultConfig_wf⟩

/-- Settles O3: the reset state is a construction from admitted parameters. -/
theorem resetMeetsTheInvariant : Obligations.ResetMeetsTheInvariant :=
  constructionMeetsTheInvariant defaultConfig defaultLaunch State.reset defaultConfig_wf (by decide)
    resetIsTheDefaultConstruction.1

end Sys2Proof.Machine
end

section
/-! PROOFS. SHFT (R148, R149, R185): the control Word as numbers, the two directions, and the instruction. -/

namespace Sys2Proof.Machine

/-- The amount is the control Word modulo 16 (R149). -/
theorem shiftAmount_eq (b : Word) : shiftAmount b = b.toNat % 16 := by
  simp [shiftAmount]

/-- The direction is right from 0x8000 up (R149). -/
theorem shiftRight_eq_true_iff (b : Word) : shiftRight b = true ↔ 32768 ≤ b.toNat := msb_eq_true_iff b

/-- An amount of 0 keeps the Word and the carry (R148). -/
theorem aluShft_zero (a : Word) {b : Word} (c0 : Bool) (h : b.toNat % 16 = 0) : aluShft a b c0 = (a, c0, false) := by
  simp [aluShft, shiftAmount_eq, h]

/-- A left shift by at least 1 (R148). -/
theorem aluShft_left (a : Word) {b : Word} (c0 : Bool) (h : b.toNat % 16 ≠ 0) (hb : b.toNat < 32768) :
    aluShft a b c0 = (a <<< (b.toNat % 16), a.getLsbD (16 - b.toNat % 16), false) := by
  have hdir : ¬shiftRight b = true := by
    rw [shiftRight_eq_true_iff]
    omega
  simp [aluShft, shiftAmount_eq, h, hdir]

/-- A right shift by at least 1 (R148). -/
theorem aluShft_right (a : Word) {b : Word} (c0 : Bool) (h : b.toNat % 16 ≠ 0) (hb : 32768 ≤ b.toNat) :
    aluShft a b c0 = (a >>> (b.toNat % 16), a.getLsbD (b.toNat % 16 - 1), false) := by
  simp [aluShft, shiftAmount_eq, h, (shiftRight_eq_true_iff b).mpr hb]

/-- The last bit a left shift by `n` moves out of a Word is bit 16 of the product (R148). -/
theorem getLsbD_eq_testBit_mul (a : Word) {n : Nat} (hn : n ≤ 16) :
    a.getLsbD (16 - n) = (a.toNat * 2 ^ n).testBit 16 := by
  rw [Nat.testBit_mul_two_pow, decide_eq_true hn, Bool.true_and]
  rfl

/-- `V` stays cleared, whatever the shift (R148). -/
theorem aluShft_v (a b : Word) (c0 : Bool) : (aluShft a b c0).2.2 = false := by
  simp only [aluShft]
  split
  · rfl
  · split <;> rfl

/-- SHFT by its rule (R148, R149). -/
theorem shftSpec_aluShft (a b : Word) (c0 : Bool) :
    ShftSpec a b c0 (withResultFlags (aluShft a b c0)).1 (withResultFlags (aluShft a b c0)).2 := by
  refine ⟨fun h => ?zero, fun h hb => ?left, fun h hb => ?right, resultFlags_withResultFlags _, aluShft_v a b c0⟩
  case zero =>
    rw [aluShft_zero a c0 h]
    exact ⟨rfl, rfl⟩
  case left =>
    rw [aluShft_left a c0 h hb]
    refine ⟨?_, getLsbD_eq_testBit_mul a (by omega)⟩
    exact (BitVec.toNat_shiftLeft).trans (by rw [Nat.shiftLeft_eq])
  case right =>
    rw [aluShft_right a c0 h hb]
    exact ⟨(BitVec.toNat_ushiftRight a _).trans (Nat.shiftRight_eq_div_pow _ _), rfl⟩

/-- Settles O24: the ALU answers SHFT's result, which obeys its rule. -/
theorem aluShiftsAndKeepsTheLastBitOut : Obligations.AluShiftsAndKeepsTheLastBitOut := fun _ a b f h =>
  ⟨_, _, alu_aluCode_toNat h .shft a b f, shftSpec_aluShft a b f.c⟩

/-- Settles O38: SHFT completes by its rule; its Word is read by format R. -/
theorem shftWritesResultAndFlags : Obligations.ShftWritesResultAndFlags :=
  ⟨fun s rd ra rb h => aluToReg_completes h .shft rd (shftSpec_aluShft (s.getReg ra) (s.getReg rb) s.flags.c),
    decodesAs_of_threeRegs rfl fun _ => rfl⟩

end Sys2Proof.Machine
end

section
/-! PROOFS. The two memories (R50 to R60): equal memories are equal data, the load path, the stack path, and LOAD and STORE over
the ordinary path (R173, R174), up to the LOAD that reads what the last STORE stored (R64). -/

namespace Sys2Proof.Machine

/-! ### One address space -/

/-- The lowest listed address reads its Word. -/
theorem Memory.read_head (a : Nat) (v : Word) (m : Memory) : Memory.read ((a, v) :: m) a = v := if_pos rfl

/-- Above the lowest listed address the rest is read. -/
theorem Memory.read_tail {a k : Nat} (v : Word) (m : Memory) (h : k ≠ a) : Memory.read ((a, v) :: m) k = m.read k := if_neg h

/-- The parts of the canonical form. -/
theorem Memory.wfFrom_cons {lo a : Nat} {v : Word} {m : Memory} (h : Memory.wfFrom lo ((a, v) :: m) = true) :
    v ≠ 0 ∧ Memory.wfFrom (a + 1) m = true := by
  simp only [Memory.wfFrom, Bool.and_eq_true, decide_eq_true_eq] at h
  exact ⟨h.1.2, h.2⟩

/-- The canonical form holds from the lowest listed address up. -/
theorem Memory.wfFrom_head {lo a : Nat} {v : Word} {m : Memory} (h : Memory.wfFrom lo ((a, v) :: m) = true) :
    Memory.wfFrom a ((a, v) :: m) = true := by
  simp only [Memory.wfFrom, Bool.and_eq_true, decide_eq_true_eq] at h ⊢
  exact ⟨⟨⟨Nat.le_refl a, h.1.1.2⟩, h.1.2⟩, h.2⟩

/-- The lowest address listed in one memory is not below every address listed in another that reads alike. -/
theorem Memory.not_lt_of_reads {lo lo' a : Nat} {v : Word} {m m' : Memory} (h : Memory.wfFrom lo ((a, v) :: m) = true)
    (h' : Memory.wfFrom lo' m' = true) (hread : ∀ k, Memory.read ((a, v) :: m) k = m'.read k) : ¬a < lo' := fun hlt =>
  (Memory.wfFrom_cons h).1 (((Memory.read_head a v m).symm.trans (hread a)).trans (Memory.read_of_lt h' hlt))

/-- Canonical memories that read alike are equal (R50). -/
theorem Memory.eq_of_reads {m m' : Memory} {lo lo' : Nat} (h : Memory.wfFrom lo m = true) (h' : Memory.wfFrom lo' m' = true)
    (hread : ∀ k, m.read k = m'.read k) : m = m' := by
  induction m generalizing lo lo' m' with
  | nil =>
    cases m' with
    | nil => rfl
    | cons e m' => exact absurd ((Memory.read_head e.1 e.2 m').symm.trans (hread e.1).symm) (Memory.wfFrom_cons h').1
  | cons e m ih =>
    obtain ⟨a, v⟩ := e
    cases m' with
    | nil => exact absurd ((Memory.read_head a v m).symm.trans (hread a)) (Memory.wfFrom_cons h).1
    | cons e' m' =>
      obtain ⟨b, w⟩ := e'
      have hab := Memory.not_lt_of_reads h (Memory.wfFrom_head h') hread
      have hba := Memory.not_lt_of_reads h' (Memory.wfFrom_head h) fun k => (hread k).symm
      obtain rfl : a = b := by omega
      obtain ⟨-, hm⟩ := Memory.wfFrom_cons h
      obtain ⟨-, hm'⟩ := Memory.wfFrom_cons h'
      have hv := hread a
      rw [Memory.read_head, Memory.read_head] at hv
      have htail : ∀ k, Memory.read m k = Memory.read m' k := fun k => by
        by_cases hk : k = a
        · rw [hk, Memory.read_of_lt hm a.lt_succ_self, Memory.read_of_lt hm' a.lt_succ_self]
        · rw [← Memory.read_tail v m hk, hread, Memory.read_tail w m' hk]
      rw [hv, ih hm hm' htail]

/-- Settles O33: the lowest listed entries agree, and then the rest. -/
theorem canonicalMemoriesAreDeterminedByTheirReads : Obligations.CanonicalMemoriesAreDeterminedByTheirReads :=
  fun _ _ h h' => Memory.eq_of_reads h h'

/-- Settles O12: the running phase rejects at once; the loading phase writes inside the space. -/
theorem instructionMemoryIsWritableOnlyWhileLoading : Obligations.InstructionMemoryIsWritableOnlyWhileLoading :=
  fun m a v hm => ⟨rfl, fun h0 h1 => ⟨m.write a.toNat v, imemWrite_loading ⟨h0, h1⟩ m v,
    Memory.wf_write hm (toNat_lt_of_inAddressSpace (inAddressSpace_iff.mpr ⟨h0, h1⟩)) v, Memory.read_write_same hm _ v,
    fun _ hk => Memory.read_write_of_ne m v hk⟩⟩

/-! ### The stack path, branch by branch -/

/-- A stack access outside the region fails its check (R59, R60). -/
theorem stackCheck_of_outside {c : Config} {a : Int} (h : inStackRegion c a = false) :
    stackCheck c a = .error (.operandRangeError a) := by
  simp [stackCheck, h]

/-- A stack access inside the region passes its check (R59, R60). -/
theorem stackCheck_of_inside {c : Config} {a : Int} (h : inStackRegion c a = true) : stackCheck c a = .ok a.toNat :=
  if_pos h

/-- A stack read outside the region (R59). -/
theorem stackRead_of_outside {c : Config} {a : Int} (h : inStackRegion c a = false) (m : Memory) :
    stackRead c m a = .error (.operandRangeError a) := by
  rw [stackRead, stackCheck_of_outside h]

/-- A stack write outside the region (R60). -/
theorem stackWrite_of_outside {c : Config} {a : Int} (h : inStackRegion c a = false) (m : Memory) (v : Word) :
    stackWrite c m a v = .error (.operandRangeError a) := by
  rw [stackWrite, stackCheck_of_outside h]

/-- A stack read inside the region (R59). -/
theorem stackRead_of_inside {c : Config} {a : Int} (h : inStackRegion c a = true) (m : Memory) :
    stackRead c m a = .ok (m.read a.toNat) := by
  rw [stackRead, stackCheck_of_inside h]

/-- A stack write inside the region (R60). -/
theorem stackWrite_of_inside {c : Config} {a : Int} (h : inStackRegion c a = true) (m : Memory) (v : Word) :
    stackWrite c m a v = .ok (m.write a.toNat v) := by
  rw [stackWrite, stackCheck_of_inside h]

/-- Settles O32: the one check of the stack path, then the read or the write of the address space. -/
theorem stackPathReachesOnlyTheStackRegion : Obligations.StackPathReachesOnlyTheStackRegion := by
  intro c m a v hm
  rw [← inStackRegion_iff, Bool.not_eq_true]
  refine ⟨fun h => ⟨stackRead_of_outside h m, stackWrite_of_outside h m v⟩, fun h => ⟨stackRead_of_inside h m,
    m.write a.toNat v, stackWrite_of_inside h m v, Memory.read_write_same hm _ v, ?_,
    fun _ hk => Memory.read_write_of_ne m v hk⟩⟩
  exact Memory.wf_write hm (toNat_lt_of_inAddressSpace (inAddressSpace_of_inStackRegion h)) v

/-! ### LOAD -/

/-- The effective address in terms of the signed immediate (R172). -/
theorem effectiveAddress_eq (base : Word) (addr6 : BitVec 6) :
    effectiveAddress base addr6 = (base.toNat : Int) + addr6.toInt :=
  congrArg ((base.toNat : Int) + ·) (sext_eq_toInt addr6)

/-- LOAD from an address that passes both checks (R173). -/
theorem exec_load_of_ordinary {s : State} {f1 f2 : Reg} {addr6 : BitVec 6} {ea : Int}
    (hea : effectiveAddress (s.getReg f2) addr6 = ea) (h : ordinaryCheck s.cfg ea = .ok ea.toNat) :
    exec (.load f1 f2 addr6) s = .next (s.setReg f1 (s.dmem.read ea.toNat)) := by
  simp only [exec, execLoad, memRead, hea, h]

/-- LOAD from an address that fails a check (R173). -/
theorem exec_load_of_error {s : State} {f1 f2 : Reg} {addr6 : BitVec 6} {ea : Int} {e : CoreError}
    (hea : effectiveAddress (s.getReg f2) addr6 = ea) (h : ordinaryCheck s.cfg ea = .error e) :
    exec (.load f1 f2 addr6) s = raise s e := by
  simp only [exec, execLoad, memRead, hea, h]

/-- Settles O28: both checks pass, and LOAD is one register write. -/
theorem loadReadsOrdinaryDataMemory : Obligations.LoadReadsOrdinaryDataMemory := by
  intro s f1 f2 addr6 ea hea h0 h1 hs
  refine ⟨_, exec_load_of_ordinary ((effectiveAddress_eq _ _).trans hea.symm) (ordinaryCheck_of_ordinary ⟨h0, h1⟩ hs), ?_,
    onlyReg_setReg s f1 _⟩
  exact s.getReg_setReg_self f1 _

/-! ### STORE -/

/-- STORE to an address that passes both checks (R174). -/
theorem exec_store_of_ordinary {s : State} {f1 f2 : Reg} {addr6 : BitVec 6} {ea : Int} (hea : storeAddress f1 f2 addr6 s = ea)
    (h : ordinaryCheck s.cfg ea = .ok ea.toNat) :
    exec (.store f1 f2 addr6) s =
      .next (s.setDmem (s.dmem.write ea.toNat (s.getReg (storeRoles s.cfg f1 f2).1))) := by
  simp only [exec, execStore, memWrite, hea, h]

/-- STORE to an address that fails a check (R174). -/
theorem exec_store_of_error {s : State} {f1 f2 : Reg} {addr6 : BitVec 6} {ea : Int} {e : CoreError}
    (hea : storeAddress f1 f2 addr6 s = ea) (h : ordinaryCheck s.cfg ea = .error e) :
    exec (.store f1 f2 addr6) s = raise s e := by
  simp only [exec, execStore, memWrite, hea, h]

/-- By default the first field is the data register and the second the base (R88, D3). -/
theorem storeRoles_f2 {c : Config} (h : c.storeBase = .f2) (f1 f2 : Reg) : storeRoles c f1 f2 = (f1, f2) := by
  rw [storeRoles, h]

/-- Under the switch the second field is the data register and the first the base (R88, D3). -/
theorem storeRoles_f1 {c : Config} (h : c.storeBase = .f1) (f1 f2 : Reg) : storeRoles c f1 f2 = (f2, f1) := by
  rw [storeRoles, h]

/-- Settles O29: both checks pass, and STORE is one write to data memory. -/
theorem storeWritesOrdinaryDataMemory : Obligations.StoreWritesOrdinaryDataMemory := by
  intro s f1 f2 addr6 ea hea hm h0 h1 hs
  have hx := exec_store_of_ordinary hea.symm (ordinaryCheck_of_ordinary ⟨h0, h1⟩ hs)
  have hdone := exec_completed hx
  have hread := Memory.read_write_same hm ea.toNat (s.getReg (storeRoles s.cfg f1 f2).1)
  rw [storeAddress, effectiveAddress_eq] at hea
  refine ⟨_, hx, fun hf => ?base2, fun hf => ?base1, ?mem, hdone.dmem_wf hm, hdone.regsKeptBut, rfl, rfl, rfl, rfl, .refl s⟩
  case base2 =>
    rw [storeRoles_f2 hf] at hea hread
    exact ⟨hea, by rw [storeRoles_f2 hf]; exact hread⟩
  case base1 =>
    rw [storeRoles_f1 hf] at hea hread
    exact ⟨hea, by rw [storeRoles_f1 hf]; exact hread⟩
  case mem =>
    have hkept := hdone.memKeptBut
    rwa [addressStored, storeAddress, effectiveAddress_eq, ← hea] at hkept

/-- Settles O30: each error is the one of the ordinary check that fails. -/
theorem loadAndStoreAddressErrors : Obligations.LoadAndStoreAddressErrors := by
  intro s f1 f2 addr6 i ea hi
  have hraise : ∀ e, ordinaryCheck s.cfg ea = .error e → exec i s = raise s e := by
    intro e he
    obtain ⟨rfl, hea⟩ | ⟨rfl, hea⟩ := hi
    · exact exec_load_of_error ((effectiveAddress_eq _ _).trans hea.symm) he
    · exact exec_store_of_error hea.symm he
  exact ⟨fun h => hraise _ (ordinaryCheck_of_outside h), fun h0 h1 => hraise _ (ordinaryCheck_of_stack ⟨h0, h1⟩)⟩

/-! ### The most recent STORE -/

/-- What every tick of a run within `P` keeps, the run keeps. -/
theorem RunWithin.induction {P Q : State → Prop} (hQ : ∀ w w', P w → step w = .next w' → Q w → Q w') {n : Nat}
    {s t : State} (h : RunWithin P n s t) (hs : Q s) : Q t := by
  induction n generalizing s with
  | zero => exact h.2 ▸ hs
  | succ n ih =>
    obtain ⟨hP, u, hu, h⟩ := h
    exact ih h (hQ s u hP hu hs)

/-- A tick keeps every Word of data memory that the instruction it executes does not store to (R58). -/
theorem step_keeps_unstored {s t : State} {a : Int} (h : step s = .next t)
    (ha : ∀ i s', Executes s i s' → addressStored i s' ≠ some a) (h0 : 0 ≤ a) :
    t.dmem.read a.toNat = s.dmem.read a.toNat := by
  obtain ⟨-, rfl⟩ | ⟨i, s', he, hx⟩ := step_inv h
  · rfl
  · have hne := ha i s' he
    obtain ⟨-, rfl⟩ := he.inv
    exact (exec_completed hx).memKeptBut a.toNat (by rw [Int.toNat_of_nonneg h0]; exact hne.symm)

/-- A STORE that completes passed both ordinary checks and left its Word (R57, R174). -/
theorem exec_store_stored {s t : State} {f1 f2 : Reg} {d : BitVec 6} (hm : s.dmem.wf = true)
    (h : exec (.store f1 f2 d) s = .next t) :
    0 ≤ storeAddress f1 f2 d s ∧ ordinaryCheck s.cfg (storeAddress f1 f2 d s) = .ok (storeAddress f1 f2 d s).toNat ∧
      t.dmem.read (storeAddress f1 f2 d s).toNat = s.getReg (storeRoles s.cfg f1 f2).1 := by
  obtain ⟨m, hw, rfl⟩ := execStore_inv h
  obtain ⟨hin, hout, rfl⟩ := memWrite_ok hw
  have hmem := inAddressSpace_iff.mp hin
  have hordinary := ordinaryCheck_of_ordinary hmem (inStackRegion_iff.not.mp (Bool.eq_false_iff.mp hout))
  exact ⟨hmem.1, hordinary, Memory.read_write_same hm _ _⟩

/-- Settles O34: the STORE leaves its Word at an ordinary address, the run keeps it there, and the LOAD passes the checks the
STORE passed. -/
theorem loadReturnsTheMostRecentStore : Obligations.LoadReturnsTheMostRecentStore := by
  intro s s' t u u' f1 f2 g1 g2 d e n hm hstore ht hrun hload hea
  have hx : exec (.store f1 f2 d) s' = .next t := hstore.step.symm.trans ht
  obtain ⟨h0, hordinary, hread⟩ := exec_store_stored (hstore.dmem_eq.symm ▸ hm) hx
  obtain ⟨-, -, -, hcfg⟩ := exec_fixedKept hx
  generalize storeAddress f1 f2 d s' = ea at h0 hordinary hread hrun hea
  have hkept : u.dmem.read ea.toNat = t.dmem.read ea.toNat ∧ u.cfg = t.cfg :=
    hrun.induction (Q := fun w => w.dmem.read ea.toNat = t.dmem.read ea.toNat ∧ w.cfg = t.cfg)
      (fun w w' hw hstep => And.imp (step_keeps_unstored hstep hw h0).trans (step_keeps_imem_cfg hstep).2.trans) ⟨rfl, rfl⟩
  have hcheck : ordinaryCheck u'.cfg ea = .ok ea.toNat := by rw [hload.cfg_eq, hkept.2, hcfg, hordinary]
  refine ⟨_, hload.step.trans (exec_load_of_ordinary hea hcheck), ?_⟩
  rw [State.getReg_setReg_self, hload.dmem_eq, hkept.1, hread]

end Sys2Proof.Machine
end

section
/-! PROOFS. Control transfer (R190 to R197): the relative target, the branches, CALL and RET with their errors, HALT, and the
RET that goes back to after its CALL. -/

namespace Sys2Proof.Machine

/-! ### The relative target and the branches -/

/-- A target in range, or any target under the wrap, is the sum reduced to a Word (R190). -/
theorem branchTarget_of_mem {c : Config} {seq : Word} {off : BitVec 8} {target : Int}
    (ht : target = (seq.toNat : Int) + off.toInt) (h : (0 ≤ target ∧ target ≤ 0xFFFF) ∨ c.pcOverflow = .wrap) :
    branchTarget c seq off = .ok (wordOfInt target) := by
  rw [branchTarget, sext_eq_toInt, ← ht]
  exact h.elim (fun hin => pcAddress_of_mem c (inAddressSpace_iff.mpr hin)) (fun hw => pcAddress_of_wrap hw target)

/-- Any other target raises `OperandRangeError` (R190, R202). -/
theorem branchTarget_of_outside {c : Config} {seq : Word} {off : BitVec 8} {target : Int}
    (ht : target = (seq.toNat : Int) + off.toInt) (h : target < 0 ∨ 0xFFFF < target) (hc : c.pcOverflow = .fault) :
    branchTarget c seq off = .error (.operandRangeError target) := by
  rw [branchTarget, sext_eq_toInt, ← ht]
  exact pcAddress_of_fault hc (inAddressSpace_eq_false_iff.mpr h)

/-- A jump to a target that passes its check (R190). -/
theorem jump_of_ok {s : State} {off : BitVec 8} {a : Word} (h : branchTarget s.cfg s.pc off = .ok a) :
    jump off s = .next (s.setPc a) := by
  simp only [jump, h]

/-- A jump to a target that fails its check (R190). -/
theorem jump_of_error {s : State} {off : BitVec 8} {e : CoreError} (h : branchTarget s.cfg s.pc off = .error e) :
    jump off s = raise s e := by
  simp only [jump, h]

/-- BEQ with `Z` 1 jumps (R191). -/
theorem exec_beq_of_z {s : State} (ra : Reg) (off : BitVec 8) (h : s.flags.z = true) : exec (.beq ra off) s = jump off s :=
  if_pos h

/-- BEQ with `Z` 0 falls through (R191). -/
theorem exec_beq_of_not_z {s : State} (ra : Reg) (off : BitVec 8) (h : s.flags.z = false) : exec (.beq ra off) s = .next s :=
  if_neg (Bool.eq_false_iff.mp h)

/-- BNE with `Z` 0 jumps (R192). -/
theorem exec_bne_of_not_z {s : State} (ra : Reg) (off : BitVec 8) (h : s.flags.z = false) : exec (.bne ra off) s = jump off s :=
  if_neg (Bool.eq_false_iff.mp h)

/-- BNE with `Z` 1 falls through (R192). -/
theorem exec_bne_of_z {s : State} (ra : Reg) (off : BitVec 8) (h : s.flags.z = true) : exec (.bne ra off) s = .next s :=
  if_pos h

/-- `i` is a transfer with offset `off` that is taken in `s`: BEQ with `Z` 1, BNE with `Z` 0, or B. -/
def Taken (ra : Reg) (off : BitVec 8) (i : Instr) (s : State) : Prop :=
  (i = .beq ra off ∧ s.flags.z = true) ∨ (i = .bne ra off ∧ s.flags.z = false) ∨ i = .b off

/-- A transfer that is taken is a jump (R190 to R192, R196). -/
theorem Taken.exec_eq_jump {ra : Reg} {off : BitVec 8} {i : Instr} {s : State} (h : Taken ra off i s) :
    exec i s = jump off s := by
  obtain ⟨rfl, hz⟩ | ⟨rfl, hz⟩ | rfl := h
  · exact exec_beq_of_z ra off hz
  · exact exec_bne_of_not_z ra off hz
  · rfl

/-- The fields of a BEQ Word (R90). -/
theorem cutFields_BEQ (w : Word) : cutFields .BEQ w = .beq (regAt 9 w.toNat) (bitsAt 8 1 w.toNat) := by
  rw [cutFields, firstReg_eq_regAt, field8_eq_bitsAt]

/-- The fields of a BNE Word (R90). -/
theorem cutFields_BNE (w : Word) : cutFields .BNE w = .bne (regAt 9 w.toNat) (bitsAt 8 1 w.toNat) := by
  rw [cutFields, firstReg_eq_regAt, field8_eq_bitsAt]

/-- The field of a B Word (R91). -/
theorem cutFields_B (w : Word) : cutFields .B w = .b (bitsAt 8 4 w.toNat) := congrArg Instr.b (offsetBU_eq_bitsAt w)

/-- The field of a CALL Word (R91). -/
theorem cutFields_CALL (w : Word) : cutFields .CALL w = .call (bitsAt 8 4 w.toNat) :=
  congrArg Instr.call (offsetBU_eq_bitsAt w)

/-- Settles O39: a taken transfer is a jump to a target that passes its check; the Words are read by BC and BU. -/
theorem takenBranchesGoToTheirTarget : Obligations.TakenBranchesGoToTheirTarget := by
  refine ⟨fun s ra off i target hi ht hin => ?_, decodesAs_of_cutFields cutFields_BEQ, decodesAs_of_cutFields cutFields_BNE,
    decodesAs_of_cutFields cutFields_B⟩
  exact ⟨_, (Taken.exec_eq_jump hi).trans (jump_of_ok (branchTarget_of_mem ht hin)), toNat_wordOfInt target, rfl⟩

/-- Settles O40: neither branch computes its target. -/
theorem untakenBranchesFallThrough : Obligations.UntakenBranchesFallThrough := fun _ ra off =>
  ⟨exec_beq_of_not_z ra off, exec_bne_of_z ra off⟩

/-- Settles O41: a taken transfer is a jump to a target that fails its check. -/
theorem branchTargetErrors : Obligations.BranchTargetErrors := fun _ _ _ _ _ hi ht hout hc =>
  (Taken.exec_eq_jump hi).trans (jump_of_error (branchTarget_of_outside ht hout hc))

/-! ### CALL and RET -/

/-- CALL with its slot in the region and a target that passes its check (R193). -/
theorem exec_call_of_ok {s : State} {off : BitVec 8} {a : Word} (hsp : inStackRegion s.cfg s.sp.toNat = true)
    (ha : branchTarget s.cfg s.pc off = .ok a) :
    exec (.call off) s = .next (((s.setDmem (s.dmem.write s.sp.toNat s.pc)).setSp (s.sp - 1)).setPc a) := by
  simp only [exec, execCall, stackWrite_of_inside hsp, ha, Int.toNat_natCast]

/-- CALL with its slot outside the region fails before it computes a target (R204). -/
theorem exec_call_of_outside {s : State} (off : BitVec 8) (hsp : inStackRegion s.cfg s.sp.toNat = false) :
    exec (.call off) s = raise s (.operandRangeError s.sp.toNat) := by
  simp only [exec, execCall, stackWrite_of_outside hsp]

/-- CALL with its slot in the region and a target that fails its check (R204). -/
theorem exec_call_of_target_error {s : State} {off : BitVec 8} {e : CoreError}
    (hsp : inStackRegion s.cfg s.sp.toNat = true) (ha : branchTarget s.cfg s.pc off = .error e) :
    exec (.call off) s = raise s e := by
  simp only [exec, execCall, stackWrite_of_inside hsp, ha]

/-- RET with the slot above `sp` in the region (R194). -/
theorem exec_ret_of_inside {s : State} (h : inStackRegion s.cfg (popAddress s) = true) :
    exec .ret s = .next ((s.setSp (s.sp + 1)).setPc (s.dmem.read (s.sp.toNat + 1))) := by
  simp only [exec, execRet, stackRead_of_inside h, wordOfInt_popAddress]
  rfl

/-- RET with that slot outside the region (R194). -/
theorem exec_ret_of_outside {s : State} (h : inStackRegion s.cfg (popAddress s) = false) :
    exec .ret s = raise s (.operandRangeError (popAddress s)) := by
  simp only [exec, execRet, stackRead_of_outside h]

/-- Outside the region, in naturals. -/
theorem inStackRegion_natCast_eq_false_iff {c : Config} {a : Nat} :
    inStackRegion c a = false ↔ a < c.stackLo.toNat ∨ c.stackHi.toNat < a := by
  rw [← Bool.not_eq_true, inStackRegion_natCast_iff]
  omega

/-- Settles O42: the slot and the target pass their checks; the effect is one write, `sp` and `pc`. -/
theorem callPushesAndJumps : Obligations.CallPushesAndJumps := by
  refine ⟨fun s off target hc hm hlo hhi ht hin => ?_, decodesAs_of_cutFields cutFields_CALL⟩
  have hsp : inStackRegion s.cfg s.sp.toNat = true := inStackRegion_natCast_iff.mpr ⟨hlo, hhi⟩
  have hx := exec_call_of_ok hsp (branchTarget_of_mem ht hin)
  have hdone := exec_completed hx
  exact ⟨_, hx, Memory.read_write_same hm _ _, hdone.memKeptBut, hdone.dmem_wf hm, (toNat_sub_one_of_slot hc hsp).1,
    toNat_wordOfInt target, hdone.regsKeptBut, rfl, rfl, .refl s⟩

/-- Settles O43: the slot above `sp` passes its check; the effect is `sp` and `pc`. -/
theorem retPopsTheReturnAddress : Obligations.RetPopsTheReturnAddress := by
  refine ⟨fun s hlo hhi => ?_, decodesAs_of_cutFields fun _ => rfl⟩
  have hx := exec_ret_of_inside (inStackRegion_natCast_iff.mpr ⟨hlo, hhi⟩)
  have hdone := exec_completed hx
  have hsp : (s.sp + 1).toNat = s.sp.toNat + 1 := by
    have hlt := s.cfg.stackHi.isLt
    bv_omega
  exact ⟨_, hx, rfl, hsp, hdone.memKeptBut, hdone.regsKeptBut, rfl, rfl, .refl s⟩

/-- Settles O44: the check of CALL's slot, then that of its target; the check of RET's slot. -/
theorem callAndRetErrors : Obligations.CallAndRetErrors := fun _ off =>
  ⟨fun h => exec_call_of_outside off (inStackRegion_natCast_eq_false_iff.mpr h),
    fun hlo hhi hc hout =>
      exec_call_of_target_error (inStackRegion_natCast_iff.mpr ⟨hlo, hhi⟩) (branchTarget_of_outside rfl hout hc),
    fun h => exec_ret_of_outside (inStackRegion_natCast_eq_false_iff.mpr h)⟩

/-- Settles O45: HALT writes the run state alone, and the tick result is its negation. -/
theorem haltHalts : Obligations.HaltHalts :=
  ⟨fun s => ⟨s.halt, rfl, rfl, rfl⟩, decodesAs_of_cutFields fun _ => rfl⟩

/-! ### Back from a CALL -/

/-- A CALL that completes has its slot in the region and leaves its return address there, `sp` one below (R193). -/
theorem exec_call_pushed {s t : State} {off : BitVec 8} (hm : s.dmem.wf = true) (h : exec (.call off) s = .next t) :
    inStackRegion s.cfg s.sp.toNat = true ∧ t.dmem.read s.sp.toNat = s.pc ∧ t.sp = s.sp - 1 ∧ t.cfg = s.cfg := by
  obtain ⟨m, a, hw, -, rfl⟩ := execCall_inv h
  obtain ⟨hsp, rfl⟩ := stackWrite_ok hw
  exact ⟨hsp, Memory.read_write_same hm _ _, rfl, rfl⟩

/-- Settles O46: the RET reads the slot that the CALL wrote. -/
theorem retUndoesCall : Obligations.RetUndoesCall := by
  intro s t u off hc hm hcall hcfg husp hread
  obtain ⟨hslot, hpushed, hsp, htcfg⟩ := exec_call_pushed hm hcall
  obtain ⟨hpred, hpos⟩ := toNat_sub_one_of_slot hc hslot
  have hpop : u.sp.toNat + 1 = s.sp.toNat := by rw [husp, hsp, hpred, Nat.sub_add_cancel hpos]
  have hinside : inStackRegion u.cfg (popAddress u) = true := by
    rw [hcfg, htcfg, popAddress, ← Nat.cast_succ, Nat.succ_eq_add_one, hpop, hslot]
  refine ⟨_, exec_ret_of_inside hinside, ?_, ?_⟩
  · exact (congrArg u.dmem.read hpop).trans (hread.trans hpushed)
  · exact (congrArg (· + 1) (husp.trans hsp)).trans (BitVec.sub_add_cancel s.sp 1)

/-- A tick with `sp` below a slot of the region leaves that slot as it is: only a CALL stores in the region, at `sp`. -/
theorem step_keeps_slot {s t : State} {a : Nat} (h : step s = .next t) (hsp : s.sp.toNat < a)
    (hslot : inStackRegion s.cfg a = true) : t.dmem.read a = s.dmem.read a := by
  by_contra hne
  obtain ⟨-, rfl, -⟩ | ⟨-, hout⟩ := step_stores h hne
  · exact absurd hsp (Nat.lt_irrefl _)
  · cases hslot.symm.trans hout

/-- Settles O47: the run keeps the CALL's slot, so that the RET undoes the CALL. -/
theorem nestedCallsReturnToTheirCaller : Obligations.NestedCallsReturnToTheirCaller := by
  intro s s' t u u' off n hc hm hcall ht hrun hret hlevel
  have hx : exec (.call off) s' = .next t := hcall.step.symm.trans ht
  have hm' : s'.dmem.wf = true := hcall.dmem_eq.symm ▸ hm
  obtain ⟨hslot, -, hsp, hcfg⟩ := exec_call_pushed hm' hx
  rw [hcall.sp_eq] at hslot hsp
  have hkept : u.dmem.read s.sp.toNat = t.dmem.read s.sp.toNat ∧ u.cfg = t.cfg :=
    hrun.induction (Q := fun w => w.dmem.read s.sp.toNat = t.dmem.read s.sp.toNat ∧ w.cfg = t.cfg)
      (fun w w' hw hstep ⟨hread, hwcfg⟩ =>
        ⟨(step_keeps_slot hstep hw (by rw [hwcfg, hcfg, hslot])).trans hread, (step_keeps_imem_cfg hstep).2.trans hwcfg⟩)
      ⟨rfl, rfl⟩
  have husp : u'.sp = t.sp := by
    rw [hret.sp_eq, hsp]
    bv_omega
  obtain ⟨v, hv, hpc, hvsp⟩ := retUndoesCall s' t u' off (hcall.cfg_eq.symm ▸ hc) hm' hx (hret.cfg_eq.trans hkept.2) husp
    (by rw [hcall.sp_eq, hret.dmem_eq, hkept.1])
  exact ⟨v, hret.step.trans hv, hpc.trans hcall.pc_eq, hvsp.trans hcall.sp_eq⟩

end Sys2Proof.Machine
end

section
/-! PROOFS. What has no influence (R24, R28, R29, R30): each shared operation run from two states that agree on what it reads,
then every instruction after a change of one register, of `sp` or of the flags. -/

namespace Sys2Proof.Machine

/-! ### The ALU from two states -/

/-- The code the core presents for an operation selects that operation or, under a map that is not admitted, nothing (R141). -/
theorem aluSelect_aluCode_cases (cm : AluCtrlMap) (op : AluOp) :
    aluSelect cm (aluCode cm op) = .ok op ∨ ∃ e, aluSelect cm (aluCode cm op) = .error e := by
  have hle : cm.toList.idxOf op ≤ 5 := by simpa using List.idxOf_le_length (l := cm.toList) (a := op)
  have hcode : (aluCode cm op).toNat = cm.toList.idxOf op := by
    rw [aluCode, BitVec.toNat_ofNat]
    omega
  by_cases hmem : op ∈ cm.toList
  · have hlt := List.idxOf_lt_length_iff.mpr hmem
    refine .inl ?_
    simp only [aluSelect, hcode, List.getElem?_eq_getElem hlt, List.getElem_idxOf]
  · have h5 : cm.toList.idxOf op = 5 := by simpa using List.idxOf_eq_length hmem
    exact .inr ⟨_, aluSelect_of_le cm (by rw [hcode, h5])⟩

/-- The carry from before reaches SHFT alone (R142). -/
theorem aluOperate_carry {op : AluOp} (h : op ≠ .shft) (a b : Word) (c c' : Bool) :
    aluOperate op a b c = aluOperate op a b c' := by
  cases op with
  | shft => exact absurd rfl h
  | _ => rfl

/-- The flags from before have no influence on an ALU operation other than SHFT (R142). -/
theorem alu_flags {op : AluOp} (h : op ≠ .shft) (cm : AluCtrlMap) (a b : Int) (f f' : Flags) :
    alu cm (aluCode cm op) a b f = alu cm (aluCode cm op) a b f' := by
  obtain hsel | ⟨e, hsel⟩ := aluSelect_aluCode_cases cm op
  · simp only [alu, hsel, aluOperate_carry h _ _ f.c f'.c]
  · simp only [alu, hsel]

/-! ### Each shared operation from two states -/

/-- Two states with the same program counter, data memory and parameters. -/
structure SameBase (s s' : State) : Prop where
  pc : s'.pc = s.pc
  dmem : s'.dmem = s.dmem
  cfg : s'.cfg = s.cfg

section
variable {s s' : State} {g : State → State} (h : SameBase s s')
include h

/-- The same error is raised alike. -/
theorem SameBase.raise_eq (e : CoreError) : raise s' e = raise s e := by
  simp only [raise, State.instrAddress, h.pc]

/-- A jump goes to the same target. -/
theorem SameBase.jump_eq (off : BitVec 8) (hg : ∀ a, s'.setPc a = g (s.setPc a)) :
    jump off s' = mapNext g (jump off s) := by
  unfold jump
  rw [h.pc, h.cfg]
  cases branchTarget s.cfg s.pc off with
  | ok a => exact congrArg _ (hg a)
  | error e => exact h.raise_eq e

/-- An ALU instruction with the same answer of the ALU writes the same. -/
theorem SameBase.aluToReg_eq (op : AluOp) (rd : Reg) (a b : Word)
    (halu : alu s.cfg.aluCtrl (aluCode s.cfg.aluCtrl op) a.toNat b.toNat s'.flags =
      alu s.cfg.aluCtrl (aluCode s.cfg.aluCtrl op) a.toNat b.toNat s.flags)
    (hg : ∀ r f, (s'.setReg rd r).setFlags f = g ((s.setReg rd r).setFlags f)) :
    aluToReg op rd a b s' = mapNext g (aluToReg op rd a b s) := by
  unfold aluToReg
  rw [h.cfg, halu]
  cases alu s.cfg.aluCtrl (aluCode s.cfg.aluCtrl op) a.toNat b.toNat s.flags with
  | ok p => exact congrArg _ (hg p.1 p.2)
  | error e => exact h.raise_eq e

/-- A LOAD with the same base reads the same. -/
theorem SameBase.execLoad_eq {f1 f2 : Reg} (d : BitVec 6) (h2 : s'.getReg f2 = s.getReg f2)
    (hg : ∀ v, s'.setReg f1 v = g (s.setReg f1 v)) : execLoad f1 f2 d s' = mapNext g (execLoad f1 f2 d s) := by
  unfold execLoad
  rw [h.cfg, h.dmem, h2]
  cases memRead s.cfg s.dmem (effectiveAddress (s.getReg f2) d) with
  | ok v => exact congrArg _ (hg v)
  | error e => exact h.raise_eq e

/-- A STORE with the same two registers stores the same. -/
theorem SameBase.execStore_eq {f1 f2 : Reg} (d : BitVec 6) (h1 : s'.getReg f1 = s.getReg f1) (h2 : s'.getReg f2 = s.getReg f2)
    (hg : ∀ m, s'.setDmem m = g (s.setDmem m)) : execStore f1 f2 d s' = mapNext g (execStore f1 f2 d s) := by
  have hroles : s'.getReg (storeRoles s.cfg f1 f2).1 = s.getReg (storeRoles s.cfg f1 f2).1 ∧
      s'.getReg (storeRoles s.cfg f1 f2).2 = s.getReg (storeRoles s.cfg f1 f2).2 := by
    unfold storeRoles
    split
    · exact ⟨h1, h2⟩
    · exact ⟨h2, h1⟩
  unfold execStore storeAddress
  rw [h.cfg, h.dmem, hroles.1, hroles.2]
  cases memWrite s.cfg s.dmem (effectiveAddress (s.getReg (storeRoles s.cfg f1 f2).2) d)
    (s.getReg (storeRoles s.cfg f1 f2).1) with
  | ok m => exact congrArg _ (hg m)
  | error e => exact h.raise_eq e

/-- A BEQ with the same `Z` branches alike. -/
theorem SameBase.execBeq_eq (ra : Reg) (off : BitVec 8) (hz : s'.flags.z = s.flags.z) (hs : s' = g s)
    (hg : ∀ a, s'.setPc a = g (s.setPc a)) : execBeq ra off s' = mapNext g (execBeq ra off s) := by
  unfold execBeq
  rw [hz]
  split
  · exact h.jump_eq off hg
  · exact congrArg _ hs

/-- A BNE with the same `Z` branches alike. -/
theorem SameBase.execBne_eq (ra : Reg) (off : BitVec 8) (hz : s'.flags.z = s.flags.z) (hs : s' = g s)
    (hg : ∀ a, s'.setPc a = g (s.setPc a)) : execBne ra off s' = mapNext g (execBne ra off s) := by
  unfold execBne
  rw [hz]
  split
  · exact congrArg _ hs
  · exact h.jump_eq off hg

/-- A CALL with the same `sp` pushes and jumps alike. -/
theorem SameBase.execCall_eq (off : BitVec 8) (hsp : s'.sp = s.sp)
    (hg : ∀ m a b, ((s'.setDmem m).setSp a).setPc b = g (((s.setDmem m).setSp a).setPc b)) :
    execCall off s' = mapNext g (execCall off s) := by
  unfold execCall
  rw [h.cfg, h.dmem, h.pc, hsp]
  cases stackWrite s.cfg s.dmem s.sp.toNat s.pc with
  | error e => exact h.raise_eq e
  | ok m =>
    cases branchTarget s.cfg s.pc off with
    | error e => exact h.raise_eq e
    | ok a => exact congrArg _ (hg m _ a)

/-- A RET with the same `sp` pops the same. -/
theorem SameBase.execRet_eq (hsp : s'.sp = s.sp) (hg : ∀ a b, (s'.setSp a).setPc b = g ((s.setSp a).setPc b)) :
    execRet s' = mapNext g (execRet s) := by
  unfold execRet popAddress
  rw [h.cfg, h.dmem, hsp]
  cases stackRead s.cfg s.dmem (s.sp.toNat + 1) with
  | error e => exact h.raise_eq e
  | ok v => exact congrArg _ (hg _ v)

end

/-! ### A register not read -/

/-- A change of a register, before an instruction that writes `r`: what is left of it afterwards. -/
def settleReg (r : Option Reg) (k : Reg) (v : Word) (t : State) : State := if r = some k then t else t.setReg k v

/-- A register write after the change. -/
theorem setReg_setReg_eq_settleReg (s : State) (k r : Reg) (v w : Word) :
    (s.setReg k v).setReg r w = settleReg (some r) k v (s.setReg r w) := by
  unfold settleReg
  by_cases hr : r = k
  · rw [if_pos (congrArg some hr), hr, State.setReg_setReg_self]
  · rw [if_neg (mt Option.some.inj hr), State.setReg_comm s r k w v fun e => hr e.symm]

/-- An ALU instruction after a change of a register that is not an operand. -/
theorem aluToReg_setReg (op : AluOp) (rd : Reg) (a b : Word) (s : State) (k : Reg) (v : Word) :
    aluToReg op rd a b (s.setReg k v) = mapNext (settleReg (some rd) k v) (aluToReg op rd a b s) := by
  have hbase : SameBase s (s.setReg k v) := ⟨rfl, rfl, rfl⟩
  refine hbase.aluToReg_eq op rd a b rfl fun r f => ?_
  rw [setReg_setReg_eq_settleReg]
  unfold settleReg
  split <;> rfl

/-- A register not read keeps the others, in the terms of `regsRead`. -/
theorem getReg_setReg_of_not_mem {l : List Reg} {k r : Reg} (hk : k ∉ l) (hr : r ∈ l) (s : State) (v : Word) :
    (s.setReg k v).getReg r = s.getReg r :=
  s.getReg_setReg_of_ne k r v fun e => hk (e ▸ hr)

/-- Settles O51: instruction by instruction, the registers read are as before and the change commutes with what is written. -/
theorem unreadRegistersHaveNoInfluence : Obligations.UnreadRegistersHaveNoInfluence := by
  intro i s k v hk
  change exec i (s.setReg k v) = mapNext (settleReg (regWritten i) k v) (exec i s)
  have hbase : SameBase s (s.setReg k v) := ⟨rfl, rfl, rfl⟩
  have hread : ∀ r ∈ regsRead i, (s.setReg k v).getReg r = s.getReg r := fun r hr => getReg_setReg_of_not_mem hk hr s v
  cases i with
  | loadi rd imm8 => exact congrArg _ (setReg_setReg_eq_settleReg s k rd v _)
  | lui rd imm8 =>
    simp only [exec, execLui, hread rd (by simp [regsRead])]
    exact congrArg _ (setReg_setReg_eq_settleReg s k rd v _)
  | load f1 f2 d => exact hbase.execLoad_eq d (hread f2 (by simp [regsRead])) (setReg_setReg_eq_settleReg s k f1 v)
  | store f1 f2 d =>
    exact hbase.execStore_eq d (hread f1 (by simp [regsRead])) (hread f2 (by simp [regsRead])) fun _ => rfl
  | addi rd ra imm6 =>
    simp only [exec, execAddi, hread ra (by simp [regsRead])]
    exact aluToReg_setReg _ rd _ _ s k v
  | add rd ra rb | sub rd ra rb | and rd ra rb | or rd ra rb | shft rd ra rb =>
    simp only [exec, execAdd, execSub, execAnd, execOr, execShft, hread ra (by simp [regsRead]),
      hread rb (by simp [regsRead])]
    exact aluToReg_setReg _ rd _ _ s k v
  | beq ra off => exact hbase.execBeq_eq ra off rfl rfl fun _ => rfl
  | bne ra off => exact hbase.execBne_eq ra off rfl rfl fun _ => rfl
  | b off => exact hbase.jump_eq off fun _ => rfl
  | call off => exact hbase.execCall_eq off rfl fun _ _ _ => rfl
  | ret => exact hbase.execRet_eq rfl fun _ _ => rfl
  | halt => rfl

/-! ### `sp` and the flags -/

/-- `sp` has no influence on an instruction other than CALL and RET (R28). -/
theorem exec_setSp {i : Instr} (hcall : i.mnemonic ≠ .CALL) (hret : i.mnemonic ≠ .RET) (s : State) (a : Word) :
    exec i (s.setSp a) = mapNext (fun t => t.setSp a) (exec i s) := by
  have hbase : SameBase s (s.setSp a) := ⟨rfl, rfl, rfl⟩
  cases i with
  | loadi | lui | halt => rfl
  | load f1 f2 d => exact hbase.execLoad_eq d rfl fun _ => rfl
  | store f1 f2 d => exact hbase.execStore_eq d rfl rfl fun _ => rfl
  | addi | add | sub | and | or | shft => exact hbase.aluToReg_eq _ _ _ _ rfl fun _ _ => rfl
  | beq ra off => exact hbase.execBeq_eq ra off rfl rfl fun _ => rfl
  | bne ra off => exact hbase.execBne_eq ra off rfl rfl fun _ => rfl
  | b off => exact hbase.jump_eq off fun _ => rfl
  | call => exact absurd rfl hcall
  | ret => exact absurd rfl hret

/-- The flags have no influence on an instruction other than BEQ, BNE and SHFT (R30). -/
theorem exec_setFlags {i : Instr} (hbc : i.mnemonic.format ≠ .BC) (hshft : i.mnemonic ≠ .SHFT) (s : State) (f : Flags) :
    exec i (s.setFlags f) = mapNext (fun t => if usesAlu i.mnemonic then t else t.setFlags f) (exec i s) := by
  have hbase : SameBase s (s.setFlags f) := ⟨rfl, rfl, rfl⟩
  cases i with
  | loadi | lui | halt => rfl
  | load f1 f2 d => exact hbase.execLoad_eq d rfl fun _ => rfl
  | store f1 f2 d => exact hbase.execStore_eq d rfl rfl fun _ => rfl
  | addi | add | sub | and | or => exact hbase.aluToReg_eq _ _ _ _ (alu_flags (by decide) _ _ _ _ _) fun _ _ => rfl
  | shft => exact absurd rfl hshft
  | beq | bne => exact absurd rfl hbc
  | b off => exact hbase.jump_eq off fun _ => rfl
  | call off => exact hbase.execCall_eq off rfl fun _ _ _ => rfl
  | ret => exact hbase.execRet_eq rfl fun _ _ => rfl

/-- Settles O52: the two clauses, each by its own lemma. -/
theorem unreadStackPointerAndFlagsHaveNoInfluence : Obligations.UnreadStackPointerAndFlagsHaveNoInfluence :=
  fun _ s a f => ⟨fun hcall hret => exec_setSp hcall hret s a, fun hbc hshft => exec_setFlags hbc hshft s f⟩

/-! ### Where the flags come from -/

/-- One flag in the value of all four (R29). -/
theorem toNat_mul_eq_ite (b : Bool) (k : Nat) : b.toNat * k = if b then k else 0 := by
  cases b <;> simp

/-- The flags as one value (R29). -/
theorem flags_toNat (f : Flags) : f.toNat =
    (if f.n then 8 else 0) + (if f.z then 4 else 0) + (if f.c then 2 else 0) + (if f.v then 1 else 0) := by
  rw [Flags.toNat, ← Nat.mul_one f.v.toNat]
  simp only [toNat_mul_eq_ite]

/-- A tick that changes the flags executes an ALU instruction (R29). -/
theorem exists_executes_alu_of_flags_ne {s t : State} (h : step s = .next t) (hf : t.flags ≠ s.flags) :
    ∃ i s', Executes s i s' ∧ usesAlu i.mnemonic = true := by
  obtain ⟨-, rfl⟩ | ⟨i, s', he, hx⟩ := step_inv h
  · exact absurd rfl hf
  · refine ⟨i, s', he, ?_⟩
    by_contra hi
    have hkept := (exec_completed hx).flags_eq (Bool.eq_false_of_not_eq_true hi)
    obtain ⟨-, rfl⟩ := he.inv
    exact hf hkept

/-- With an amount other than 0 the carry from before has no influence on SHFT (R148). -/
theorem aluShft_carry (a : Word) {b : Word} (h : b.toNat % 16 ≠ 0) (c c' : Bool) : aluShft a b c = aluShft a b c' := by
  simp only [aluShft, shiftAmount_eq, if_neg h]

/-- The `C` that SHFT leaves: independent of the one before, or, with an amount of 0, the one before (R148). -/
theorem aluShft_carry_cases (a b : Word) (c c' : Bool) :
    (aluShft a b c').2.1 = (aluShft a b c).2.1 ∨
      (b.toNat % 16 = 0 ∧ (aluShft a b c).2.1 = c ∧ (aluShft a b c').2.1 = c') := by
  by_cases h : b.toNat % 16 = 0
  · exact .inr ⟨h, by rw [aluShft_zero a c h], by rw [aluShft_zero a c' h]⟩
  · exact .inl (by rw [aluShft_carry a h c c'])

/-- The Word that SHFT gives does not depend on the carry from before (R148). -/
theorem aluShft_result (a b : Word) (c c' : Bool) : (aluShft a b c').1 = (aluShft a b c).1 := by
  by_cases h : b.toNat % 16 = 0
  · rw [aluShft_zero a c h, aluShft_zero a c' h]
  · rw [aluShft_carry a h c c']

/-- A SHFT that completes does so with any flags before, with the flags of its own result (R185). -/
theorem exec_shft_flags {s t : State} {rd ra rb : Reg} (h : exec (.shft rd ra rb) s = .next t) (f : Flags) :
    t.flags = (withResultFlags (aluShft (s.getReg ra) (s.getReg rb) s.flags.c)).2 ∧
    ∃ t', exec (.shft rd ra rb) (s.setFlags f) = .next t' ∧
      t'.flags = (withResultFlags (aluShft (s.getReg ra) (s.getReg rb) f.c)).2 := by
  obtain hsel | ⟨e, hsel⟩ := aluSelect_aluCode_cases s.cfg.aluCtrl .shft
  · simp only [exec, execShft, aluToReg, alu, hsel, wordOfInt_toNat] at h
    refine ⟨Host.Outcome.next.inj h ▸ rfl, ?_⟩
    simp only [exec, execShft, aluToReg, alu, State.setFlags_cfg, hsel, State.setFlags_getReg, wordOfInt_toNat]
    exact ⟨_, rfl, rfl⟩
  · simp only [exec, execShft, aluToReg, alu, hsel] at h
    exact absurd h (raise_ne_next s t e)

/-- The `C` of an ALU instruction, before and after a change of the flags: independent of it, or kept by a SHFT by 0. -/
def CarryIndependent (i : Instr) (s : State) (f g g' : Flags) : Prop :=
  g'.c = g.c ∨ ∃ rd ra rb, i = .shft rd ra rb ∧ (s.getReg rb).toNat % 16 = 0 ∧ g.c = s.flags.c ∧ g'.c = f.c

/-- What an ALU instruction leaves in the flags depends on that instruction alone, but for the `C` that a SHFT by 0 keeps. -/
theorem exec_alu_flags {i : Instr} {s t : State} (hi : usesAlu i.mnemonic = true) (h : exec i s = .next t) (f : Flags) :
    ∃ t', exec i (s.setFlags f) = .next t' ∧ t'.flags.n = t.flags.n ∧ t'.flags.z = t.flags.z ∧
      t'.flags.v = t.flags.v ∧ CarryIndependent i s f t.flags t'.flags := by
  cases i with
  | shft rd ra rb =>
    obtain ⟨hg, t', hx, hg'⟩ := exec_shft_flags h f
    have hr := aluShft_result (s.getReg ra) (s.getReg rb) s.flags.c f.c
    have hv := (aluShft_v (s.getReg ra) (s.getReg rb) f.c).trans (aluShft_v (s.getReg ra) (s.getReg rb) s.flags.c).symm
    refine ⟨t', hx, ?_⟩
    rw [CarryIndependent, hg, hg']
    refine ⟨congrArg BitVec.msb hr, congrArg (fun r : Word => decide (r = 0)) hr, hv, ?_⟩
    exact (aluShft_carry_cases (s.getReg ra) (s.getReg rb) s.flags.c f.c).imp_right fun hc => ⟨rd, ra, rb, rfl, hc⟩
  | addi | add | sub | and | or =>
    exact ⟨t, (exec_setFlags (by nofun) (by nofun) s f).trans (congrArg _ h), rfl, rfl, rfl, .inl rfl⟩
  | _ => cases hi

/-- Settles O50: the value of the flags, who changes them, and what they depend on. -/
theorem flagsComeFromTheLastAluInstruction : Obligations.FlagsComeFromTheLastAluInstruction :=
  ⟨flags_toNat, fun _ _ => exists_executes_alu_of_flags_ne, fun _ _ _ f hi h => exec_alu_flags hi h f⟩

end Sys2Proof.Machine
end

section
/-! PROOFS. The errors (R200 to R207): when each check fails, which fault each instruction and each tick ends in, and the
codes. -/

namespace Sys2Proof.Machine

/-! ### An instruction completes or raises one error -/

/-- The fault of a raised error carries the address of the instruction (R206). -/
theorem raise_eq_fault_iff {s : State} {e : CoreError} {f : Fault} : raise s e = .fault f ↔ f = .ofError e s.instrAddress :=
  ⟨fun h => (Host.Outcome.fault.inj h).symm, fun h => congrArg _ h.symm⟩

/-- `o` is the outcome of a rule in `s` whose only error is that of `check`: it completes where the check passes and raises
the check's error where it fails. -/
structure Checked {α : Type} (s : State) (check : Except CoreError α) (o : Host.Outcome State Fault Refusal) : Prop where
  ok : ∀ a, check = .ok a → ∃ t, o = .next t
  error : ∀ e, check = .error e → o = raise s e

/-- A rule with one check faults with that check's error and with no other. -/
theorem Checked.fault_iff {α : Type} {s : State} {check : Except CoreError α} {o : Host.Outcome State Fault Refusal}
    (h : Checked s check o) (f : Fault) : o = .fault f ↔ ∃ e, check = .error e ∧ f = .ofError e s.instrAddress := by
  cases hc : check with
  | ok a =>
    obtain ⟨t, ht⟩ := h.ok a hc
    simp [ht]
  | error e =>
    rw [h.error e hc, raise_eq_fault_iff]
    simp

/-- A rule with one check completes or raises. -/
theorem Checked.next_or_raise {α : Type} {s : State} {check : Except CoreError α} {o : Host.Outcome State Fault Refusal}
    (h : Checked s check o) : (∃ t, o = .next t) ∨ ∃ e, o = raise s e := by
  cases hc : check with
  | ok a => exact .inl (h.ok a hc)
  | error e => exact .inr ⟨e, h.error e hc⟩

/-- LOAD has the ordinary check (R173). -/
theorem checked_load (f1 f2 : Reg) (d : BitVec 6) (s : State) :
    Checked s (ordinaryCheck s.cfg (effectiveAddress (s.getReg f2) d)) (exec (.load f1 f2 d) s) := by
  refine ⟨fun a h => ?_, fun e h => exec_load_of_error rfl h⟩
  simp only [exec, execLoad, memRead, h]
  exact ⟨_, rfl⟩

/-- STORE has the ordinary check (R174). -/
theorem checked_store (f1 f2 : Reg) (d : BitVec 6) (s : State) :
    Checked s (ordinaryCheck s.cfg (storeAddress f1 f2 d s)) (exec (.store f1 f2 d) s) := by
  refine ⟨fun a h => ?_, fun e h => exec_store_of_error rfl h⟩
  simp only [exec, execStore, memWrite, h]
  exact ⟨_, rfl⟩

/-- A jump has the check of its target (R190). -/
theorem checked_jump (off : BitVec 8) (s : State) : Checked s (branchTarget s.cfg s.pc off) (jump off s) :=
  ⟨fun _ h => ⟨_, jump_of_ok h⟩, fun _ h => jump_of_error h⟩

/-- CALL with its slot in the region has the check of its target (R204). -/
theorem checked_call {off : BitVec 8} {s : State} (h : inStackRegion s.cfg s.sp.toNat = true) :
    Checked s (branchTarget s.cfg s.pc off) (exec (.call off) s) :=
  ⟨fun _ ha => ⟨_, exec_call_of_ok h ha⟩, fun _ ha => exec_call_of_target_error h ha⟩

/-- RET has the stack check (R194). -/
theorem checked_ret (s : State) : Checked s (stackCheck s.cfg (popAddress s)) (exec .ret s) := by
  refine ⟨fun a h => ?_, fun e h => ?_⟩ <;> simp only [exec, execRet, stackRead, h]
  exact ⟨_, rfl⟩

/-- Every instruction completes or raises an error; none is refused (R124, R206). -/
theorem exec_next_or_raise (i : Instr) (s : State) : (∃ t, exec i s = .next t) ∨ ∃ e, exec i s = raise s e := by
  cases i with
  | loadi | lui | halt => exact .inl ⟨_, rfl⟩
  | load f1 f2 d => exact (checked_load f1 f2 d s).next_or_raise
  | store f1 f2 d => exact (checked_store f1 f2 d s).next_or_raise
  | addi | add | sub | and | or | shft => exact (aluToReg_cases _ _ _ _ s).imp_left fun ⟨_, _, h⟩ => ⟨_, h⟩
  | beq ra off =>
    cases hz : s.flags.z with
    | true => exact exec_beq_of_z ra off hz ▸ (checked_jump off s).next_or_raise
    | false => exact .inl ⟨s, exec_beq_of_not_z ra off hz⟩
  | bne ra off =>
    cases hz : s.flags.z with
    | true => exact .inl ⟨s, exec_bne_of_z ra off hz⟩
    | false => exact exec_bne_of_not_z ra off hz ▸ (checked_jump off s).next_or_raise
  | b off => exact (checked_jump off s).next_or_raise
  | call off =>
    cases hsp : inStackRegion s.cfg s.sp.toNat with
    | true => exact (checked_call hsp).next_or_raise
    | false => exact .inr ⟨_, exec_call_of_outside off hsp⟩
  | ret => exact (checked_ret s).next_or_raise

/-- No instruction is refused. -/
theorem exec_ne_refused (i : Instr) (s : State) (r : Refusal) : exec i s ≠ .refused r := by
  obtain ⟨t, h⟩ | ⟨e, h⟩ := exec_next_or_raise i s <;> rw [h] <;> nofun

/-! ### When each check fails -/

/-- The ordinary check fails with the faults of R202 and R203. -/
theorem ordinaryCheck_error_iff (s : State) (ea : Int) (f : Fault) :
    (∃ e, ordinaryCheck s.cfg ea = .error e ∧ f = .ofError e s.instrAddress) ↔ OrdinaryAddressFault s ea f := by
  have hexcl := not_outside_and_stack s.cfg ea
  unfold OrdinaryAddressFault
  rw [← inAddressSpace_eq_false_iff, ← inStackRegion_iff] at hexcl ⊢
  obtain ⟨hin, he⟩ | ⟨hin, hs, he⟩ | ⟨hin, hs, he⟩ := ordinaryCheck_cases s.cfg ea
  · have hs : ¬inStackRegion s.cfg ea = true := fun hs => hexcl ⟨hin, hs⟩
    simp [he, hin, hs, Fault.ofError]
  · simp [he, hin, hs, Fault.ofError]
  · simp [he, hin, hs]

/-- The stack check fails with the fault of R202. -/
theorem stackCheck_error_iff (s : State) (a : Int) (f : Fault) :
    (∃ e, stackCheck s.cfg a = .error e ∧ f = .ofError e s.instrAddress) ↔ StackAddressFault s a f := by
  have hout : a < s.cfg.stackLo.toNat ∨ (s.cfg.stackHi.toNat : Int) < a ↔ inStackRegion s.cfg a = false := by
    rw [← Bool.not_eq_true, inStackRegion_iff]
    omega
  rw [StackAddressFault, hout]
  obtain ⟨hs, he⟩ | ⟨hs, he⟩ := stackCheck_cases s.cfg a <;> simp [he, hs, Fault.ofError]

/-- The check of a target fails with the fault of R202, under `PC_OVERFLOW = fault`. -/
theorem branchTarget_error_iff (s : State) (off : BitVec 8) (f : Fault) :
    (∃ e, branchTarget s.cfg s.pc off = .error e ∧ f = .ofError e s.instrAddress) ↔ TargetFault s off f := by
  rw [TargetFault, ← inAddressSpace_eq_false_iff, branchTarget]
  obtain ⟨hin | hw, he⟩ | ⟨hin, hf, he⟩ := pcAddress_cases s.cfg ((s.pc.toNat : Int) + sext off)
  · simp [he, hin]
  · simp [he, hw]
  · simp [he, hin, hf, Fault.ofError]

/-- A jump faults exactly with the fault of its target (R190). -/
theorem jump_fault_iff (s : State) (off : BitVec 8) (f : Fault) : jump off s = .fault f ↔ TargetFault s off f :=
  ((checked_jump off s).fault_iff f).trans (branchTarget_error_iff s off f)

/-- Inside the region the stack check has no fault. -/
theorem not_stackAddressFault_of_inside {s : State} {a : Int} (h : inStackRegion s.cfg a = true) (f : Fault) :
    ¬StackAddressFault s a f := by
  rw [← stackCheck_error_iff, stackCheck_of_inside h]
  nofun

/-- Outside the region the stack check has one fault. -/
theorem stackAddressFault_iff_of_outside {s : State} {a : Int} (h : inStackRegion s.cfg a = false) (f : Fault) :
    StackAddressFault s a f ↔ f = .ofError (.operandRangeError a) s.instrAddress := by
  rw [← stackCheck_error_iff, stackCheck_of_outside h]
  simp

/-! ### The table of R207 -/

/-- Under admitted parameters an ALU instruction has no fault (R125). -/
theorem aluToReg_ne_fault {s : State} (hc : s.cfg.wf = true) (op : AluOp) (rd : Reg) (a b : Word) (f : Fault) :
    aluToReg op rd a b s ≠ .fault f := by
  rw [aluToReg_next hc]
  nofun

/-- An instruction faults exactly with the faults the table lists for it (R207). -/
theorem exec_fault_iff {s : State} (hc : s.cfg.wf = true) (i : Instr) (f : Fault) :
    exec i s = .fault f ↔ ListedFault i s f := by
  cases i with
  | loadi | lui | halt => exact iff_of_false nofun id
  | load f1 f2 d => exact ((checked_load f1 f2 d s).fault_iff f).trans (ordinaryCheck_error_iff s _ f)
  | store f1 f2 d => exact ((checked_store f1 f2 d s).fault_iff f).trans (ordinaryCheck_error_iff s _ f)
  | addi | add | sub | and | or | shft => exact iff_of_false (aluToReg_ne_fault hc _ _ _ _ f) id
  | beq ra off =>
    rw [ListedFault]
    cases hz : s.flags.z with
    | true => rw [exec_beq_of_z ra off hz, jump_fault_iff, eq_self, true_and]
    | false => exact iff_of_false (by rw [exec_beq_of_not_z ra off hz]; nofun) (by simp)
  | bne ra off =>
    rw [ListedFault]
    cases hz : s.flags.z with
    | true => exact iff_of_false (by rw [exec_bne_of_z ra off hz]; nofun) (by simp)
    | false => rw [exec_bne_of_not_z ra off hz, jump_fault_iff, eq_self, true_and]
  | b off => exact jump_fault_iff s off f
  | call off =>
    rw [ListedFault]
    cases hsp : inStackRegion s.cfg s.sp.toNat with
    | true =>
      rw [(checked_call hsp).fault_iff, branchTarget_error_iff, eq_self, true_and,
        or_iff_right (not_stackAddressFault_of_inside hsp f)]
    | false =>
      rw [exec_call_of_outside off hsp, raise_eq_fault_iff, stackAddressFault_iff_of_outside hsp]
      simp
  | ret => exact ((checked_ret s).fault_iff f).trans (stackCheck_error_iff s _ f)

/-- The decoder answers an instruction or `DecodeError` with the Word (R94). -/
theorem decode_cases (om : Opmap) (w : Word) : (∃ i, decode om w = .ok i) ∨ decode om w = .error (.decodeError w) := by
  cases hz : zeroBitsSet (om.mnemonicOf (opcodeField w)) w with
  | true => exact .inr (decode_of_illegal hz)
  | false => exact .inl ⟨_, decode_of_legal hz⟩

/-- The fetch of a tick passes its range check or is the one at the top of instruction memory (R27). -/
theorem fetch_passes_or_top (s : State) :
    (s.pc ≠ 0xFFFF ∨ s.cfg.pcOverflow = .wrap) ∨ (s.pc = 0xFFFF ∧ s.cfg.pcOverflow = .fault) := by
  cases s.cfg.pcOverflow with
  | wrap => exact .inl (.inr rfl)
  | fault => simpa using ne_or_eq s.pc 0xFFFF

/-- Fetch and decode of a Word that does not decode (R123). -/
theorem fetchDecode_of_decode_error {s : State} (h : s.pc ≠ 0xFFFF ∨ s.cfg.pcOverflow = .wrap)
    (hd : decode s.cfg.opmap (imemRead s.imem s.pc) = .error (.decodeError (imemRead s.imem s.pc))) :
    fetchDecode s = .error (.decodeError (imemRead s.imem s.pc) s.pc) := by
  simp [fetchDecode, fetch_of_ne_top h, decodeStep, hd, Fault.ofError]

/-- Fetch and decode fail exactly with the faults of R204. -/
theorem fetchDecode_error_iff (s : State) (f : Fault) : fetchDecode s = .error f ↔ FetchDecodeFault s f := by
  unfold FetchDecodeFault
  obtain hpass | ⟨hpc, hc⟩ := fetch_passes_or_top s
  · have htop : ¬(s.pc = 0xFFFF ∧ s.cfg.pcOverflow = .fault ∧ f = .operandRangeError 0x10000 0xFFFF) := by
      rintro ⟨hpc, hc, -⟩
      simp [hpc, hc] at hpass
    rw [or_iff_right htop, and_iff_right hpass]
    obtain ⟨i, hd⟩ | hd := decode_cases s.cfg.opmap (imemRead s.imem s.pc)
    · simp [fetchDecode_of_decode hpass hd, hd]
    · simp [fetchDecode_of_decode_error hpass hd, hd, eq_comm]
  · simp [fetchDecode, fetch_of_top hpc hc, hpc, hc, eq_comm]

/-- A tick faults where a running core's fetch or decode fails, or the instruction it executes faults (R127). -/
theorem step_fault_iff (s : State) (f : Fault) :
    step s = .fault f ↔
      s.halted = false ∧ (fetchDecode s = .error f ∨ ∃ i s', Executes s i s' ∧ exec i s' = .fault f) := by
  cases hh : s.halted with
  | true => simp [step_of_halted hh]
  | false =>
    simp only [Executes, hh, true_and]
    cases hfd : fetchDecode s with
    | error g => simp [step, hh, hfd]
    | ok p => simp [step_of_fetchDecode (i := p.1) (s' := p.2) hh hfd, Prod.ext_iff]

/-- No tick is refused. -/
theorem step_ne_refused (s : State) (r : Refusal) : step s ≠ .refused r := by
  cases hh : s.halted with
  | true => rw [step_of_halted hh]; nofun
  | false =>
    cases hfd : fetchDecode s with
    | error g => simp [step, hh, hfd]
    | ok p => exact step_of_fetchDecode (i := p.1) (s' := p.2) hh hfd ▸ exec_ne_refused p.1 p.2 r

/-- A tick faults exactly with the faults of R204 and R207. -/
theorem step_fault_iff_listed {s : State} (hc : s.cfg.wf = true) (f : Fault) :
    step s = .fault f ↔
      s.halted = false ∧ (FetchDecodeFault s f ∨ ∃ i s', Executes s i s' ∧ ListedFault i s' f) := by
  rw [step_fault_iff, fetchDecode_error_iff]
  refine and_congr_right fun _ => or_congr_right (exists_congr fun i => exists_congr fun s' => and_congr_right fun he => ?_)
  exact exec_fault_iff (he.cfg_eq.symm ▸ hc) i f

/-- Settles O53: the faults of every instruction and of every tick, and that neither is refused. -/
theorem onlyTheListedErrorsAreRaised : Obligations.OnlyTheListedErrorsAreRaised := fun s hc =>
  ⟨exec_fault_iff hc, step_fault_iff_listed hc, fun r => ⟨fun i => exec_ne_refused i s r, step_ne_refused s r⟩⟩

/-! ### Which codes are reported -/

/-- The faults the table lists are errors of ranges and of protection (R207). -/
theorem ListedFault.code {i : Instr} {s : State} {f : Fault} (h : ListedFault i s f) : f.code = 2 ∨ f.code = 3 := by
  cases i with
  | load | store =>
    obtain ⟨rfl, -⟩ | ⟨rfl, -⟩ := h
    · exact .inl rfl
    · exact .inr rfl
  | beq | bne =>
    obtain ⟨-, rfl, -⟩ := h
    exact .inl rfl
  | b | ret =>
    obtain ⟨rfl, -⟩ := h
    exact .inl rfl
  | call =>
    obtain ⟨rfl, -⟩ | ⟨-, rfl, -⟩ := h <;> exact .inl rfl
  | _ => cases h

/-- A fault of the steps before execute has code 1, exactly when the fetch passes and the Word does not decode, or code 2. -/
theorem FetchDecodeFault.code {s : State} {f : Fault} (h : FetchDecodeFault s f) :
    (f.code = 2 ∧ ∀ s', fetch s ≠ .ok s') ∨
    (f.code = 1 ∧ ∃ s', fetch s = .ok s' ∧ ∀ i, decode s'.cfg.opmap s'.ir ≠ .ok i) := by
  obtain ⟨hpc, hc, rfl⟩ | ⟨hpass, hd, rfl⟩ := h
  · exact .inl ⟨rfl, by simp [fetch_of_top hpc hc]⟩
  · exact .inr ⟨rfl, _, fetch_of_ne_top hpass, fun i hi => by cases hd.symm.trans hi⟩

/-- The Word that a tick decodes to an instruction is the one it fetched. -/
theorem Executes.decode_fetched {s s' u : State} {i : Instr} (h : Executes s i s') (hf : fetch s = .ok u) :
    decode u.cfg.opmap u.ir = .ok i := by
  obtain ⟨seq, -, rfl⟩ := fetch_ok hf
  exact h.inv.1

/-- The fault of a tick has code 1 exactly when the fetch passes and the Word does not decode, and otherwise code 2 or 3. -/
theorem step_fault_code {s : State} {f : Fault} (hc : s.cfg.wf = true) (h : step s = .fault f) :
    (f.code = 1 ∨ f.code = 2 ∨ f.code = 3) ∧
    (f.code = 1 ↔ ∃ s', fetch s = .ok s' ∧ ∀ i, decode s'.cfg.opmap s'.ir ≠ .ok i) := by
  obtain ⟨-, hfd | ⟨i, s', he, hl⟩⟩ := (step_fault_iff_listed hc f).mp h
  · obtain ⟨hcode, hno⟩ | ⟨hcode, hyes⟩ := hfd.code
    · exact ⟨.inr (.inl hcode), iff_of_false (by omega) fun ⟨s', hs', _⟩ => hno s' hs'⟩
    · exact ⟨.inl hcode, iff_of_true hcode hyes⟩
  · have hcode := hl.code
    exact ⟨.inr hcode, iff_of_false (by omega) fun ⟨_, hu, hno⟩ => hno i (he.decode_fetched hu)⟩

/-- The code of a fault is that of the error it was made from (R200). -/
theorem ofError_code (e : CoreError) (at_ : Word) : (Fault.ofError e at_).code = e.code := by
  cases e <;> rfl

/-- Settles O56: the codes by evaluation; those of a tick from the faults of R204 and R207. -/
theorem errorCodesAreTheNumbersOfTheList : Obligations.ErrorCodesAreTheNumbersOfTheList :=
  ⟨fun _ _ => rfl, fun _ _ => rfl, fun _ _ => rfl, fun _ => rfl, ofError_code, fun _ _ => step_fault_code⟩

/-! ### The error of the ALU -/

/-- Masking twice is masking once (R8). -/
theorem wordOfInt_emod (v : Int) : wordOfInt (v % 65536) = wordOfInt v := by
  have h1 := toNat_wordOfInt (v % 65536)
  have h2 := toNat_wordOfInt v
  exact BitVec.eq_of_toNat_eq (by omega)

/-- The ALU's answers by control code, and that it masks its operands first (R142, R151). -/
theorem alu_by_code (cm : AluCtrlMap) (ctrl : BitVec 3) (a b : Int) (f : Flags) :
    (5 ≤ ctrl.toNat → alu cm ctrl a b f = .error (.aluControlError ctrl)) ∧
    (ctrl.toNat < 5 → ∃ p, alu cm ctrl a b f = .ok p) ∧
    alu cm ctrl a b f = alu cm ctrl (a % 65536) (b % 65536) f := by
  refine ⟨fun h => ?illegal, fun h => ?legal, ?masked⟩
  case illegal => simp only [alu, aluSelect_of_le cm h]
  case legal =>
    obtain ⟨op, hop⟩ := aluSelect_of_lt cm h
    simp only [alu, hop]
    exact ⟨_, rfl⟩
  case masked => simp only [alu, wordOfInt_emod]

/-- Settles O25: the answers by control code; and no listed fault has code 4. -/
theorem aluControlErrorOnlyFromIllegalCodes : Obligations.AluControlErrorOnlyFromIllegalCodes := by
  refine ⟨alu_by_code, fun _ => rfl, fun s ctrl hc => ⟨fun i h => ?_, fun h => ?_⟩⟩
  · obtain hcode | hcode := ((exec_fault_iff hc i _).mp h).code <;> cases hcode
  · obtain ⟨hcode | hcode | hcode, -⟩ := step_fault_code hc h <;> cases hcode

end Sys2Proof.Machine
end

section
/-! PROOFS. The register file's ports (R23), and the run past the last loaded Word (R96, R235). -/

namespace Sys2Proof.Machine

/-! ### The register file -/

/-- The index of a register is in range, and names it in three bits (R22). -/
theorem regInRange_val (r : Reg) : regInRange (r.val : Int) = true ∧ (BitVec.ofInt 3 (r.val : Int)).toFin = r := by
  revert r
  decide

/-- Any other index is out of range. -/
theorem regInRange_eq_false {k : Int} (h : k < 0 ∨ 7 < k) : ¬regInRange k = true := by
  simp only [regInRange, within, Bool.and_eq_true, decide_eq_true_eq]
  omega

/-- The read port on the index of a register (R23). -/
theorem regFileRead_val (x : Vector Word 8) (r : Reg) : regFileRead x (r.val : Int) = .ok x[r] := by
  obtain ⟨hin, hreg⟩ := regInRange_val r
  simp only [regFileRead, if_pos hin, hreg]

/-- The write port on the index of a register (R23). -/
theorem regFileWrite_val (x : Vector Word 8) (r : Reg) (v : Word) : regFileWrite x (r.val : Int) v = .ok (x.set r v) := by
  obtain ⟨hin, hreg⟩ := regInRange_val r
  have hval : (BitVec.ofInt 3 (r.val : Int)).toNat = r.val := congrArg Fin.val hreg
  simp only [regFileWrite, if_pos hin, hval]

/-- Settles O54: each port on the index of a register, and on any other. -/
theorem registerFilePortsCheckTheirIndex : Obligations.RegisterFilePortsCheckTheirIndex := by
  refine fun x k v => ⟨?_, fun h => ⟨if_neg (regInRange_eq_false h), if_neg (regInRange_eq_false h)⟩⟩
  rintro r rfl
  refine ⟨regFileRead_val x r, _, regFileWrite_val x r v, Vector.getElem_set_self _, fun q hq => ?_⟩
  exact Vector.getElem_set_ne _ _ fun e => hq (Fin.ext e.symm)

/-! ### Past the last loaded Word -/

/-- `t` is reached from `s` by executing `LOADI R0, #0` any number of times. -/
structure ClearedTo (s t : State) : Prop where
  halted : t.halted = s.halted
  sp : t.sp = s.sp
  flags : t.flags = s.flags
  dmem : t.dmem = s.dmem
  imem : t.imem = s.imem
  cfg : t.cfg = s.cfg
  regs : RegsKeptBut (some 0) s t
  /-- no tick was made, or register 0 and `ir` are 0 -/
  cleared : t = s ∨ (t.getReg 0 = 0 ∧ t.ir = 0)

/-- No tick. -/
theorem ClearedTo.refl (s : State) : ClearedTo s s := ⟨rfl, rfl, rfl, rfl, rfl, rfl, fun _ _ => rfl, .inl rfl⟩

/-- The state after one `LOADI R0, #0` (R170). -/
def afterLoadi (s : State) : State := (afterDecode s (.loadi 0 0)).setReg 0 0

/-- A tick on an unloaded Word below the top executes `LOADI R0, #0` (R96). -/
theorem step_unloaded {s : State} (hs : s.halted = false) (hom : s.cfg.opmap = defaultOpmap) (hpc : s.pc ≠ 0xFFFF)
    (hw : imemRead s.imem s.pc = 0) : step s = .next (afterLoadi s) := by
  have hd : decode s.cfg.opmap (imemRead s.imem s.pc) = .ok (.loadi 0 0) := by
    rw [hom, hw]
    rfl
  exact step_of_fetchDecode hs (fetchDecode_of_decode (.inl hpc) hd)

/-- One more `LOADI R0, #0`. -/
theorem ClearedTo.tick {s t : State} (h : ClearedTo s t) (hw : imemRead t.imem t.pc = 0) : ClearedTo s (afterLoadi t) := by
  refine ⟨h.halted, h.sp, h.flags, h.dmem, h.imem, h.cfg, fun k hk => ?_, .inr ⟨State.getReg_setReg_self _ 0 0, hw⟩⟩
  rw [afterLoadi, regsKeptBut_setReg _ _ _ k hk]
  exact h.regs k hk

/-- From an unloaded address the machine runs to the top of instruction memory (R235). -/
theorem run_to_top {s : State} (hs : s.halted = false) (hom : s.cfg.opmap = defaultOpmap)
    (hunloaded : ∀ a, s.pc.toNat ≤ a → s.imem.read a = 0) (n : Nat) (t : State) (h : ClearedTo s t)
    (hle : s.pc.toNat ≤ t.pc.toNat) (hn : t.pc.toNat + n = 0xFFFF) :
    ∃ u, run n t = .next u ∧ ClearedTo s u ∧ u.pc = 0xFFFF := by
  induction n generalizing t with
  | zero => exact ⟨t, rfl, h, BitVec.eq_of_toNat_eq hn⟩
  | succ n ih =>
    have hpc : t.pc ≠ 0xFFFF := by bv_omega
    have hw : imemRead t.imem t.pc = 0 := by rw [h.imem, imemRead, hunloaded _ hle]
    have hnext := toNat_add_one_of_ne_top hpc
    have hstep := step_unloaded (h.halted.trans hs) (h.cfg ▸ hom) hpc hw
    have hpcnext : (afterLoadi t).pc = t.pc + 1 := rfl
    rw [run_succ, hstep]
    exact ih (afterLoadi t) (h.tick hw) (by rw [hpcnext]; omega) (by rw [hpcnext]; omega)

/-- Settles O55: the run to the top clears register 0 and `ir`, and the fetch there fails. -/
theorem unloadedMemoryRunsLoadiToTheTop : Obligations.UnloadedMemoryRunsLoadiToTheTop := by
  intro s hs hom hunloaded
  obtain ⟨t, hrun, h, hpc⟩ := run_to_top hs hom hunloaded (0xFFFF - s.pc.toNat) s (.refl s) (Nat.le_refl _) (by bv_omega)
  have hhalted := h.halted.trans hs
  refine ⟨t, hrun, hpc, hhalted, h.sp, h.flags, h.dmem, h.regs, fun hne => ?_, fun hc => ?_⟩
  · exact h.cleared.resolve_left fun e => hne (e ▸ hpc)
  · exact (fetchAndDecodeErrorsInOrder t hhalted).1 hpc (h.cfg.symm ▸ hc)

end Sys2Proof.Machine
end
